-- ==== Sys2Proof/Word.lean ====
section
/-! DEFINITION. The word types of the machine (00_scope.md rules R7, R10). All values are unsigned. -/

namespace Sys2Proof

/-- A byte: a general register, a timer, the stack pointer, a memory byte (R7: `V_WIDTH`, `SP_WIDTH`, `TIMER_WIDTH`). -/
abbrev Byte := BitVec 8

/-- A 16-bit word: an opcode, `I`, `PC`, a stack slot (R7: `INSTR_WIDTH`, `I_WIDTH`, `PC_WIDTH`, `STACK_WORD`). -/
abbrev Word := BitVec 16

/-- The 12-bit address field `nnn` of an opcode (R81). -/
abbrev Addr := BitVec 12

/-- The number of a general register V0 to VF (R21), the value of the fields `x` and `y` (R81). -/
abbrev Reg := Fin 16

end Sys2Proof
end

