-- ==== Sys2Proof/Config.lean ====
section
/-! DEFINITION. The parameters of the machine. The fixed ones of 00_scope.md rule R7 are numerals. The open ones
of rule R8 (`STACK_CAPACITY`, `FONT`, `RNG`) rest on constants with no body, so that no proof can see a value of
theirs and a theorem holds for every one. -/

namespace Sys2Proof

/-- R7 `MEM_SIZE`: bytes of main memory, addresses 0 to 4095. -/
@[simp] abbrev Config.memSize : Nat := 4096

/-- R7 `FONT_SIZE`: the font occupies addresses 0 to 79 (`FONT_BASE` is 0). -/
@[simp] abbrev Config.fontSize : Nat := 80

/-- R7 `GLYPH_HEIGHT`: bytes per glyph. -/
@[simp] abbrev Config.glyphHeight : Nat := 5

/-- R7 `LOAD_ADDR`: the load address and entry point of a program. -/
@[simp] abbrev Config.loadAddr : Nat := 512

/-- R7 `SCREEN_W`: pixel columns; readable by the host (R191, R260). -/
@[simp] abbrev Config.screenWidth : Nat := 64

/-- R7 `SCREEN_H`: pixel rows; readable by the host (R191, R260). -/
@[simp] abbrev Config.screenHeight : Nat := 32

/-- R7 `NUM_KEYS`. -/
@[simp] abbrev Config.numKeys : Nat := 16

/-- R8: the least admissible `STACK_CAPACITY`. -/
@[simp] abbrev Config.minStackCapacity : Nat := 12

/-- R8: the largest admissible `STACK_CAPACITY`. -/
@[simp] abbrev Config.maxStackCapacity : Nat := 255

/-- The open choice behind `STACK_CAPACITY` (R8, log entry 2): no body, so nothing about it can be proved. -/
opaque Config.stackChoice : Nat

/-- R8 `STACK_CAPACITY`: the number of stack slots, an implementation's choice from 12 to 255. Every admissible
value is the value for some `stackChoice` (log entry 2). -/
def Config.stackCapacity : Nat :=
  Config.stackChoice % (Config.maxStackCapacity - Config.minStackCapacity + 1) + Config.minStackCapacity

/-- R8 `FONT`: byte `a` of the font, for `a` below 80 (log entry 3). No body: no proof can rest on a glyph (R37). -/
opaque Config.fontByte : Nat → Byte

/-- R8 `RNG`: the byte that the `n`-th draw gives (R155, log entry 4). No body: any sequence of bytes. -/
opaque Config.randomByte : Nat → Byte

/-- The font the spec offers as a default (R37, from general knowledge). NOTHING in the model uses it; it is here
for a statement that wants `FONT` as a premise (`Config.FontIsDefault`). -/
def Config.defaultFont : List Byte :=
  [0xF0, 0x90, 0x90, 0x90, 0xF0,  0x20, 0x60, 0x20, 0x20, 0x70,
   0xF0, 0x10, 0xF0, 0x80, 0xF0,  0xF0, 0x10, 0xF0, 0x10, 0xF0,
   0x90, 0x90, 0xF0, 0x10, 0x10,  0xF0, 0x80, 0xF0, 0x10, 0xF0] ++
  [0xF0, 0x80, 0xF0, 0x90, 0xF0,  0xF0, 0x10, 0x20, 0x40, 0x40,
   0xF0, 0x90, 0xF0, 0x90, 0xF0,  0xF0, 0x90, 0xF0, 0x10, 0xF0,
   0xF0, 0x90, 0xF0, 0x90, 0x90,  0xE0, 0x90, 0xE0, 0x90, 0xE0] ++
  [0xF0, 0x80, 0x80, 0x80, 0xF0,  0xE0, 0x90, 0x90, 0x90, 0xE0,
   0xF0, 0x80, 0xF0, 0x80, 0xF0,  0xF0, 0x80, 0xF0, 0x80, 0x80]

/-- The premise "`FONT` is the default table of R37". It can be neither proved nor refuted here. -/
def Config.FontIsDefault : Prop :=
  ∀ a, a < Config.fontSize → Config.fontByte a = Config.defaultFont.getD a 0

end Sys2Proof
end

