-- ==== Sys2Proof/Syntax.lean ====
section
/-! DEFINITION. The instructions: one constructor per row of spec/opcode_table.json (30_encoding.md rule R86), and the
opcode map itself as data (mask and match of each row). -/

namespace Sys2Proof

/-- An instruction of the dispatch table (R86), its fields already typed (R81): register numbers `x`, `y`, the
immediate `kk`, the address `nnn`, the row count `n`. `shrVx` and `shlVx` keep the field `y` that their operation
ignores (R82, R151, R153), so that no bit of an encoding is lost. -/
inductive Instr where
  /-- `00E0`, CLS (R190). -/
  | cls
  /-- `00EE`, RET (R123). -/
  | ret
  /-- `1nnn`, JP nnn (R124). -/
  | jp (nnn : Addr)
  /-- `2nnn`, CALL nnn (R125). -/
  | call (nnn : Addr)
  /-- `3xkk`, SE Vx, kk (R127). -/
  | seVxKk (x : Reg) (kk : Byte)
  /-- `4xkk`, SNE Vx, kk (R128). -/
  | sneVxKk (x : Reg) (kk : Byte)
  /-- `5xy0`, SE Vx, Vy (R129). -/
  | seVxVy (x : Reg) (y : Reg)
  /-- `6xkk`, LD Vx, kk (R140). -/
  | ldVxKk (x : Reg) (kk : Byte)
  /-- `7xkk`, ADD Vx, kk (R141). -/
  | addVxKk (x : Reg) (kk : Byte)
  /-- `8xy0`, LD Vx, Vy (R142). -/
  | ldVxVy (x : Reg) (y : Reg)
  /-- `8xy1`, OR Vx, Vy (R143). -/
  | orVxVy (x : Reg) (y : Reg)
  /-- `8xy2`, AND Vx, Vy (R144). -/
  | andVxVy (x : Reg) (y : Reg)
  /-- `8xy3`, XOR Vx, Vy (R145). -/
  | xorVxVy (x : Reg) (y : Reg)
  /-- `8xy4`, ADD Vx, Vy (R149). -/
  | addVxVy (x : Reg) (y : Reg)
  /-- `8xy5`, SUB Vx, Vy (R150). -/
  | subVxVy (x : Reg) (y : Reg)
  /-- `8xy6`, SHR Vx (R151). -/
  | shrVx (x : Reg) (y : Reg)
  /-- `8xy7`, SUBN Vx, Vy (R152). -/
  | subnVxVy (x : Reg) (y : Reg)
  /-- `8xyE`, SHL Vx (R153). -/
  | shlVx (x : Reg) (y : Reg)
  /-- `9xy0`, SNE Vx, Vy (R130). -/
  | sneVxVy (x : Reg) (y : Reg)
  /-- `Annn`, LD I, nnn (R170). -/
  | ldINnn (nnn : Addr)
  /-- `Bnnn`, JP V0, nnn (R126). -/
  | jpV0Nnn (nnn : Addr)
  /-- `Cxkk`, RND Vx, kk (R154). -/
  | rndVxKk (x : Reg) (kk : Byte)
  /-- `Dxyn`, DRW Vx, Vy, n (R194). -/
  | drw (x : Reg) (y : Reg) (n : Fin 16)
  /-- `Ex9E`, SKP Vx (R211). -/
  | skpVx (x : Reg)
  /-- `ExA1`, SKNP Vx (R212). -/
  | sknpVx (x : Reg)
  /-- `Fx07`, LD Vx, DT (R215). -/
  | ldVxDt (x : Reg)
  /-- `Fx0A`, LD Vx, K (R213). -/
  | ldVxK (x : Reg)
  /-- `Fx15`, LD DT, Vx (R216). -/
  | ldDtVx (x : Reg)
  /-- `Fx18`, LD ST, Vx (R217). -/
  | ldStVx (x : Reg)
  /-- `Fx1E`, ADD I, Vx (R171). -/
  | addIVx (x : Reg)
  /-- `Fx29`, LD F, Vx (R174). -/
  | ldFVx (x : Reg)
  /-- `Fx33`, LD B, Vx (R175). -/
  | ldBVx (x : Reg)
  /-- `Fx55`, LD [I], Vx (R176). -/
  | ldMemVx (x : Reg)
  /-- `Fx65`, LD Vx, [I] (R177). -/
  | ldVxMem (x : Reg)
  /-- any opcode that matches no row (R87, R88): the silent no-op; it carries the opcode. -/
  | unmatched (op : Word)
  deriving DecidableEq, Repr

/-- One row of the opcode map (R84, R86): its number in R86's table, its mask, its match. -/
structure Row where
  num : Nat
  mask : Word
  value : Word
  deriving DecidableEq, Repr

/-- R84: a row matches an opcode when (op AND mask) = match. -/
def Row.accepts (r : Row) (op : Word) : Bool := op &&& r.mask == r.value

/-- The 34 rows of R86 in the document's order. -/
def opcodeMap : List Row :=
  [⟨1, 0xFFFF, 0x00E0⟩, ⟨2, 0xFFFF, 0x00EE⟩, ⟨3, 0xF000, 0x1000⟩, ⟨4, 0xF000, 0x2000⟩, ⟨5, 0xF000, 0x3000⟩] ++
  [⟨6, 0xF000, 0x4000⟩, ⟨7, 0xF00F, 0x5000⟩, ⟨8, 0xF000, 0x6000⟩, ⟨9, 0xF000, 0x7000⟩, ⟨10, 0xF00F, 0x8000⟩] ++
  [⟨11, 0xF00F, 0x8001⟩, ⟨12, 0xF00F, 0x8002⟩, ⟨13, 0xF00F, 0x8003⟩, ⟨14, 0xF00F, 0x8004⟩, ⟨15, 0xF00F, 0x8005⟩] ++
  [⟨16, 0xF00F, 0x8006⟩, ⟨17, 0xF00F, 0x8007⟩, ⟨18, 0xF00F, 0x800E⟩, ⟨19, 0xF00F, 0x9000⟩, ⟨20, 0xF000, 0xA000⟩] ++
  [⟨21, 0xF000, 0xB000⟩, ⟨22, 0xF000, 0xC000⟩, ⟨23, 0xF000, 0xD000⟩, ⟨24, 0xF0FF, 0xE09E⟩, ⟨25, 0xF0FF, 0xE0A1⟩] ++
  [⟨26, 0xF0FF, 0xF007⟩, ⟨27, 0xF0FF, 0xF00A⟩, ⟨28, 0xF0FF, 0xF015⟩, ⟨29, 0xF0FF, 0xF018⟩, ⟨30, 0xF0FF, 0xF01E⟩] ++
  [⟨31, 0xF0FF, 0xF029⟩, ⟨32, 0xF0FF, 0xF033⟩, ⟨33, 0xF0FF, 0xF055⟩, ⟨34, 0xF0FF, 0xF065⟩]

/-- The row of R86's table an instruction comes from; 35 for the no-op, which no row matches (R87, R92). -/
def Instr.rowNumber : Instr → Nat
  | .cls => 1
  | .ret => 2
  | .jp _ => 3
  | .call _ => 4
  | .seVxKk _ _ => 5
  | .sneVxKk _ _ => 6
  | .seVxVy _ _ => 7
  | .ldVxKk _ _ => 8
  | .addVxKk _ _ => 9
  | .ldVxVy _ _ => 10
  | .orVxVy _ _ => 11
  | .andVxVy _ _ => 12
  | .xorVxVy _ _ => 13
  | .addVxVy _ _ => 14
  | .subVxVy _ _ => 15
  | .shrVx _ _ => 16
  | .subnVxVy _ _ => 17
  | .shlVx _ _ => 18
  | .sneVxVy _ _ => 19
  | .ldINnn _ => 20
  | .jpV0Nnn _ => 21
  | .rndVxKk _ _ => 22
  | .drw _ _ _ => 23
  | .skpVx _ => 24
  | .sknpVx _ => 25
  | .ldVxDt _ => 26
  | .ldVxK _ => 27
  | .ldDtVx _ => 28
  | .ldStVx _ => 29
  | .addIVx _ => 30
  | .ldFVx _ => 31
  | .ldBVx _ => 32
  | .ldMemVx _ => 33
  | .ldVxMem _ => 34
  | .unmatched _ => 35

end Sys2Proof
end

