-- ==== Sys2Proof/Decode.lean ====
section
/-! DEFINITION. The decoder (30_encoding.md rules R80 to R89), total on every opcode and every list of bytes, and the
encoder written from the layouts of rule R82. -/

namespace Sys2Proof

/-! ## Fields (R81) -/

/-- `i` = op[15:12], the primary opcode. -/
def fieldI (op : Word) : Fin 16 := (op.extractLsb' 12 4).toFin

/-- `x` = op[11:8]. -/
def fieldX (op : Word) : Reg := (op.extractLsb' 8 4).toFin

/-- `y` = op[7:4]. -/
def fieldY (op : Word) : Reg := (op.extractLsb' 4 4).toFin

/-- `n` = op[3:0]. -/
def fieldN (op : Word) : Fin 16 := (op.extractLsb' 0 4).toFin

/-- `kk` = op[7:0]. -/
def fieldKK (op : Word) : Byte := op.extractLsb' 0 8

/-- `nnn` = op[11:0]. -/
def fieldNNN (op : Word) : Addr := op.extractLsb' 0 12

/-! ## Decoding an opcode (R84, R86, R87) -/

/-- The `0...` group: `00E0` and `00EE` need all 16 bits, the rest is the no-op (R84, R88). -/
def decode0 (op : Word) : Instr :=
  if op = 0x00E0 then .cls else if op = 0x00EE then .ret else .unmatched op

/-- `5xy0` needs `n` = 0 (R84). -/
def decode5 (op : Word) : Instr :=
  if fieldN op = 0 then .seVxVy (fieldX op) (fieldY op) else .unmatched op

/-- `8xy.` needs `n` in 0 to 7 or 0xE (R84). -/
def decode8 (op : Word) : Instr :=
  match fieldN op with
  | 0x0 => .ldVxVy (fieldX op) (fieldY op)
  | 0x1 => .orVxVy (fieldX op) (fieldY op)
  | 0x2 => .andVxVy (fieldX op) (fieldY op)
  | 0x3 => .xorVxVy (fieldX op) (fieldY op)
  | 0x4 => .addVxVy (fieldX op) (fieldY op)
  | 0x5 => .subVxVy (fieldX op) (fieldY op)
  | 0x6 => .shrVx (fieldX op) (fieldY op)
  | 0x7 => .subnVxVy (fieldX op) (fieldY op)
  | 0xE => .shlVx (fieldX op) (fieldY op)
  | _ => .unmatched op

/-- `9xy0` needs `n` = 0 (R84). -/
def decode9 (op : Word) : Instr :=
  if fieldN op = 0 then .sneVxVy (fieldX op) (fieldY op) else .unmatched op

/-- `Ex..` needs `kk` in 0x9E, 0xA1 (R84). -/
def decodeE (op : Word) : Instr :=
  if fieldKK op = 0x9E then .skpVx (fieldX op)
  else if fieldKK op = 0xA1 then .sknpVx (fieldX op)
  else .unmatched op

/-- `Fx..` needs `kk` in 07, 0A, 15, 18, 1E, 29, 33, 55, 65 (hexadecimal, R84). -/
def decodeF (op : Word) : Instr :=
  if fieldKK op = 0x07 then .ldVxDt (fieldX op)
  else if fieldKK op = 0x0A then .ldVxK (fieldX op)
  else if fieldKK op = 0x15 then .ldDtVx (fieldX op)
  else if fieldKK op = 0x18 then .ldStVx (fieldX op)
  else if fieldKK op = 0x1E then .addIVx (fieldX op)
  else if fieldKK op = 0x29 then .ldFVx (fieldX op)
  else if fieldKK op = 0x33 then .ldBVx (fieldX op)
  else if fieldKK op = 0x55 then .ldMemVx (fieldX op)
  else if fieldKK op = 0x65 then .ldVxMem (fieldX op)
  else .unmatched op

/-- The instruction an opcode stands for: one of the 34, or the no-op (R84, R87, R89). -/
def decodeOp (op : Word) : Instr :=
  match fieldI op with
  | 0x0 => decode0 op
  | 0x1 => .jp (fieldNNN op)
  | 0x2 => .call (fieldNNN op)
  | 0x3 => .seVxKk (fieldX op) (fieldKK op)
  | 0x4 => .sneVxKk (fieldX op) (fieldKK op)
  | 0x5 => decode5 op
  | 0x6 => .ldVxKk (fieldX op) (fieldKK op)
  | 0x7 => .addVxKk (fieldX op) (fieldKK op)
  | 0x8 => decode8 op
  | 0x9 => decode9 op
  | 0xA => .ldINnn (fieldNNN op)
  | 0xB => .jpV0Nnn (fieldNNN op)
  | 0xC => .rndVxKk (fieldX op) (fieldKK op)
  | 0xD => .drw (fieldX op) (fieldY op) (fieldN op)
  | 0xE => decodeE op
  | _ => decodeF op  -- 0xF, the one value left

/-! ## Decoding bytes (R54, R80) -/

/-- Why a list of bytes holds no instruction. -/
inductive DecodeError where
  /-- Fewer than the two bytes every instruction has (R80). -/
  | truncated
  deriving DecidableEq, Repr

/-- The first instruction of a list of bytes, high byte first (R54), and the bytes after it. -/
def decode : List Byte → Except DecodeError (Instr × List Byte)
  | hi :: lo :: rest => .ok (decodeOp (hi ++ lo), rest)
  | [_] => .error .truncated
  | [] => .error .truncated

/-! ## Encoding (R82) -/

/-- Format `NNN`: `iiii nnnn nnnn nnnn`. -/
def opNNN (i : BitVec 4) (nnn : Addr) : Word := i ++ nnn

/-- Format `XKK`: `iiii xxxx kkkk kkkk`. Format `X` is this one with a fixed `kk`. -/
def opXKK (i : BitVec 4) (x : Reg) (kk : Byte) : Word := i ++ BitVec.ofFin (w := 4) x ++ kk

/-- Format `XYN`: `iiii xxxx yyyy nnnn`. Format `XY` is this one with a fixed `n`. -/
def opXYN (i : BitVec 4) (x y : Reg) (n : Fin 16) : Word :=
  i ++ BitVec.ofFin (w := 4) x ++ BitVec.ofFin (w := 4) y ++ BitVec.ofFin (w := 4) n

/-- The opcode of an instruction (R82, R86). -/
def encode : Instr → Word
  | .cls => 0x00E0
  | .ret => 0x00EE
  | .jp nnn => opNNN 0x1 nnn
  | .call nnn => opNNN 0x2 nnn
  | .seVxKk x kk => opXKK 0x3 x kk
  | .sneVxKk x kk => opXKK 0x4 x kk
  | .seVxVy x y => opXYN 0x5 x y 0x0
  | .ldVxKk x kk => opXKK 0x6 x kk
  | .addVxKk x kk => opXKK 0x7 x kk
  | .ldVxVy x y => opXYN 0x8 x y 0x0
  | .orVxVy x y => opXYN 0x8 x y 0x1
  | .andVxVy x y => opXYN 0x8 x y 0x2
  | .xorVxVy x y => opXYN 0x8 x y 0x3
  | .addVxVy x y => opXYN 0x8 x y 0x4
  | .subVxVy x y => opXYN 0x8 x y 0x5
  | .shrVx x y => opXYN 0x8 x y 0x6
  | .subnVxVy x y => opXYN 0x8 x y 0x7
  | .shlVx x y => opXYN 0x8 x y 0xE
  | .sneVxVy x y => opXYN 0x9 x y 0x0
  | .ldINnn nnn => opNNN 0xA nnn
  | .jpV0Nnn nnn => opNNN 0xB nnn
  | .rndVxKk x kk => opXKK 0xC x kk
  | .drw x y n => opXYN 0xD x y n
  | .skpVx x => opXKK 0xE x 0x9E
  | .sknpVx x => opXKK 0xE x 0xA1
  | .ldVxDt x => opXKK 0xF x 0x07
  | .ldVxK x => opXKK 0xF x 0x0A
  | .ldDtVx x => opXKK 0xF x 0x15
  | .ldStVx x => opXKK 0xF x 0x18
  | .addIVx x => opXKK 0xF x 0x1E
  | .ldFVx x => opXKK 0xF x 0x29
  | .ldBVx x => opXKK 0xF x 0x33
  | .ldMemVx x => opXKK 0xF x 0x55
  | .ldVxMem x => opXKK 0xF x 0x65
  | .unmatched op => op

/-- An opcode as memory holds it, high byte at the lower address (R54). -/
def opBytes (op : Word) : List Byte := [op.extractLsb' 8 8, op.extractLsb' 0 8]

/-- An instruction as memory holds it. -/
def encodeBytes (i : Instr) : List Byte := opBytes (encode i)

/-- The opcode whose bits are those of `w` below `nbits`, bit 0 the least significant, all others 0. -/
def tableOp (nbits w : Nat) : Word := BitVec.ofNat 16 (w % 2 ^ nbits)

/-- The instruction the decoder reads from the bytes of `tableOp nbits w`. -/
def decodeTableWord (nbits w : Nat) : Option Instr :=
  match decode (opBytes (tableOp nbits w)) with
  | .ok (i, _) => some i
  | .error _ => none

end Sys2Proof
end

