-- ==== Sys2Proof/Machine/State.lean ====
section
/-! DEFINITION. The state of the machine (10_state.md), the reasons a step can stop, and the state after `init`. -/

namespace Sys2Proof.Machine

/-- The four fault causes of the hardware (60_exceptions.md rule R230). They are part of `MODE`, not stops of the
model: raising one leads to a next state (R233). -/
inductive FaultCause where
  /-- An address of 4096 or more, or a key index of 16 or more (R235). -/
  | boundsError
  /-- A push beyond the capacity (R236). -/
  | stackOverflow
  /-- A pop of the empty stack (R237). -/
  | stackUnderflow
  /-- A program that does not fit (R285). -/
  | programTooLarge
  deriving DecidableEq, Repr

/-- The run state `MODE` (10_state.md rule R28). -/
inductive Mode where
  /-- `step` fetches and executes. -/
  | running
  /-- Entered by `Fx0A`; a key-down event writes register `r` and resolves it. -/
  | awaitingKey (r : Reg)
  /-- A fault is latched; only `init` leaves it (R234). -/
  | faulted (c : FaultCause)
  deriving DecidableEq, Repr

/-- Main memory `MEM` (R30): the bytes that differ from the reset contents, addresses strictly rising. -/
abbrev Memory := List Host.Cell

/-- The pixel grid `FB` (R34): row `y`, then column `x`. -/
abbrev Grid := Vector (Vector Bool Config.screenWidth) Config.screenHeight

/-- The architectural state (R20), and one field of the model's own, `draws`. -/
structure State where
  /-- `V[0..15]` (R21); `V[15]` is VF, the flag register (R22). -/
  v : Vector Byte 16
  /-- The index register `I` (R23). -/
  i : Word
  /-- The program counter `PC` (R24). -/
  pc : Word
  /-- The stack pointer `SP` (R25). -/
  sp : Byte
  /-- The delay timer `DT` (R26). -/
  dt : Byte
  /-- The sound timer `ST` (R27). -/
  st : Byte
  /-- The run state `MODE` (R28). -/
  mode : Mode
  /-- Main memory `MEM` (R30). -/
  mem : Memory
  /-- The stack `STK` (R32); the machine has the first `Config.stackCapacity` of these slots (log entry 2). -/
  stk : Vector Word Config.maxStackCapacity
  /-- The pixel grid `FB` (R34). -/
  fb : Grid
  /-- The key states `KEY` (R35). -/
  key : Vector Bool Config.numKeys
  /-- The model's own: how many bytes the random source has given (R155, log entry 4). -/
  draws : Nat
  deriving DecidableEq, Repr

/-- Why the model stops without a next state. -/
inductive Fault where
  /-- Raised by `00EE` when `SP` names a slot at or above `STACK_CAPACITY`, a slot that does not exist (R32, R60).
  Safe: the machine never reads such a slot, because no run in `Running` mode has such an `SP` (R25, log entry 2). -/
  | stackSlotAbsent
  deriving DecidableEq, Repr

/-- Why the model gives an instruction no meaning. -/
inductive Refusal where
  /-- Raised by an arm of `exec` whose instruction has no meaning yet. Safe. No arm does so now. -/
  | notModelled (mnemonic : String)
  deriving DecidableEq, Repr

/-- The state after `init` (R40, R280): all state zero, `MODE` running, memory at its reset contents (nothing listed:
the font, then zeros). `draws` is the model's own and 0 here by choice (log entry 4). -/
def State.reset : State where
  v := Vector.replicate 16 0
  i := 0
  pc := 0
  sp := 0
  dt := 0
  st := 0
  mode := .running
  mem := []
  stk := Vector.replicate Config.maxStackCapacity 0
  fb := Vector.replicate Config.screenHeight (Vector.replicate Config.screenWidth false)
  key := Vector.replicate Config.numKeys false
  draws := 0

end Sys2Proof.Machine
end

