-- ==== Sys2Proof/Machine/Ops.lean ====
section
/-! DEFINITION. The named operations over registers, memory, stack and keys, the random source, and fault entry.
Every meaning is written over these. -/

namespace Sys2Proof.Machine

/-! ## Writing one field -/

/-- `V[r] <- b` (R12, R21). -/
def State.setReg (s : State) (r : Reg) (b : Byte) : State := { s with v := s.v.set r b }

/-- `I <- w` (R23). -/
def State.setI (s : State) (w : Word) : State := { s with i := w }

/-- `PC <- w` (R24). -/
def State.setPc (s : State) (w : Word) : State := { s with pc := w }

/-- `SP <- b` (R25). -/
def State.setSp (s : State) (b : Byte) : State := { s with sp := b }

/-- `DT <- b` (R26). -/
def State.setDt (s : State) (b : Byte) : State := { s with dt := b }

/-- `ST <- b` (R27). -/
def State.setSt (s : State) (b : Byte) : State := { s with st := b }

/-- `MODE <- m` (R28). -/
def State.setMode (s : State) (m : Mode) : State := { s with mode := m }

/-- The whole of memory becomes `m`. -/
def State.setMem (s : State) (m : Memory) : State := { s with mem := m }

/-- `STK[k] <- w` (R32); nothing for a slot the field does not have. -/
def State.setSlot (s : State) (k : Nat) (w : Word) : State := { s with stk := s.stk.setIfInBounds k w }

/-- The pixel grid becomes `g` (R34). -/
def State.setFb (s : State) (g : Grid) : State := { s with fb := g }

/-- `KEY[k] <- b` (R35). -/
def State.setKey (s : State) (k : Fin 16) (b : Bool) : State := { s with key := s.key.set k b }

/-- One more byte was drawn from the random source (log entry 4). -/
def State.countDraw (s : State) : State := { s with draws := s.draws + 1 }

/-! ## Reading one field -/

/-- `V[r]` (R12, R21). -/
def State.reg (s : State) (r : Reg) : Byte := s.v[r]

/-- `STK[k]`; 0 for a slot the field does not have, which no operation asks for. -/
def State.slot (s : State) (k : Nat) : Word := s.stk[k]?.getD 0

/-- `KEY[k]` (R35). -/
def State.keyAt (s : State) (k : Fin 16) : Bool := s.key[k]

/-! ## Faults (60_exceptions.md section 1) -/

/-- Fault entry (R233): `MODE <- Faulted(c)`, and nothing else: nothing is saved and `PC` is not redirected. -/
def State.takeFault (s : State) (c : FaultCause) : State := s.setMode (.faulted c)

/-- The return from a fault, the only one there is (R234): `init` (R280), which resets everything but the random
source (R36, R40). -/
def State.init (s : State) : State := { State.reset with draws := s.draws }

/-- `MODE` is `Faulted(c)` for some `c`. -/
def State.isFaulted (s : State) : Bool :=
  match s.mode with
  | .faulted _ => true
  | .running => false
  | .awaitingKey _ => false

/-- What an operation gives: a value and the state it leaves; or a raised fault and the state left by the writes
ordered before it (R238); or a stop of the model. -/
inductive Result (α : Type) where
  | ok (a : α) (s : State)
  | raised (c : FaultCause) (s : State)
  | stopped (f : Fault)
  deriving DecidableEq, Repr

/-- Go on with `k` after an operation that gave a value; a raised fault ends the sequence (R233). -/
def Result.bind {α β : Type} (r : Result α) (k : α → State → Result β) : Result β :=
  match r with
  | .ok a s => k a s
  | .raised c s => .raised c s
  | .stopped f => .stopped f

/-- End an instruction: go on with `k` after a value, take the fault after a raise (R233). -/
def Result.andThen {α : Type} (r : Result α) (k : α → State → Host.Outcome State Fault Refusal) :
    Host.Outcome State Fault Refusal :=
  match r with
  | .ok a s => k a s
  | .raised c s => .next (s.takeFault c)
  | .stopped f => .fault f

/-! ## Main memory (20_memory.md section 1) -/

/-- What an unlisted address reads as: the reset contents, the font below 80 and 0 from there on (R40, R58). -/
def Memory.unlisted (a : Nat) : Byte := if a < Config.fontSize then Config.fontByte a else 0

/-- The byte at an address. -/
def Memory.read : Memory → Nat → Byte
  | [], a => Memory.unlisted a
  | (k, b) :: m, a => if k = a then b else Memory.read m a

/-- The list without the entries for an address. -/
def Memory.erase (m : Memory) (a : Nat) : Memory := m.filter fun c => c.1 != a

/-- The list with an entry put before the first one of a higher or equal address. -/
def Memory.insert : Memory → Nat → Byte → Memory
  | [], a, b => [(a, b)]
  | c :: m, a, b => if c.1 < a then c :: Memory.insert m a b else (a, b) :: c :: m

/-- Store a byte. A byte equal to what the unlisted address reads as is not listed. -/
def Memory.write (m : Memory) (a : Nat) (b : Byte) : Memory :=
  if b = Memory.unlisted a then Memory.erase m a else Memory.insert (Memory.erase m a) a b

/-- Store bytes from an address upward. -/
def Memory.writeList : Memory → Nat → List Byte → Memory
  | m, _, [] => m
  | m, a, b :: bs => Memory.writeList (Memory.write m a b) (a + 1) bs

/-- The canonical form from a least address on: addresses strictly rising, all below 4096, no entry equal to what
its address reads as when unlisted. -/
def Memory.wfFrom : Nat → Memory → Bool
  | _, [] => true
  | lo, (a, b) :: m => decide (lo ≤ a) && decide (a < Config.memSize) && (b != Memory.unlisted a) && Memory.wfFrom (a + 1) m

/-- The canonical form of memory. -/
def Memory.wf (m : Memory) : Bool := Memory.wfFrom 0 m

/-- R50, R51: `MemRead(a, 1)`. The address is an unbounded natural. -/
def State.memRead (s : State) (a : Nat) : Result Byte :=
  if a < Config.memSize then .ok (s.mem.read a) s else .raised .boundsError s

/-- R52: `MemRead(a, 2)`, big-endian, one check on `a + 1`. -/
def State.memRead2 (s : State) (a : Nat) : Result Word :=
  if a + 1 < Config.memSize then .ok (s.mem.read a ++ s.mem.read (a + 1)) s else .raised .boundsError s

/-- R53: `MemWrite(a, 1, b)`. -/
def State.memWrite (s : State) (a : Nat) (b : Byte) : Result Unit :=
  if a < Config.memSize then .ok () (s.setMem (s.mem.write a b)) else .raised .boundsError s

/-- R178: `MemWrite` of each byte in turn, in increasing address order, each checked when it is made. -/
def State.storeBytes (s : State) (a : Nat) : List Byte → Result Unit
  | [] => .ok () s
  | b :: bs => (s.memWrite a b).bind fun _ t => t.storeBytes (a + 1) bs

/-- R178, R194: `MemRead` of `n` bytes in turn, in increasing address order. -/
def State.fetchBytes (s : State) (a : Nat) : Nat → Result (List Byte)
  | 0 => .ok [] s
  | n + 1 => (s.memRead a).bind fun b t => (t.fetchBytes (a + 1) n).bind fun bs u => .ok (b :: bs) u

/-- R177, R178: `V[r] <- MemRead` for each register in turn, in increasing address order. -/
def State.loadRegs (s : State) (a : Nat) : List Reg → Result Unit
  | [] => .ok () s
  | r :: rs => (s.memRead a).bind fun b t => (t.setReg r b).loadRegs (a + 1) rs

/-! ## The stack (41_control_flow.md section 1) -/

/-- The machine has the slot `k` (R32, R60). Every admissible capacity is at least 12 (R8), so the first 12 slots
are known to exist without knowing the capacity; the disjunction says no more than `k < STACK_CAPACITY`. -/
def slotExists (k : Nat) : Bool := decide (k < Config.minStackCapacity) || decide (k < Config.stackCapacity)

/-- R121: `Push(w)`: `SP` goes up first and stays up when the check fails. -/
def State.push (s : State) (w : Word) : Result Unit :=
  let k := s.sp.toNat + 1
  let t := s.setSp (s.sp + 1)
  if slotExists k then .ok () (t.setSlot k w) else .raised .stackOverflow t

/-- R122: `Pop()`: the empty stack is checked before anything changes. A slot that does not exist stops the model. -/
def State.pop (s : State) : Result Word :=
  if s.sp = 0 then .raised .stackUnderflow s
  else if slotExists s.sp.toNat then .ok (s.slot s.sp.toNat) (s.setSp (s.sp - 1))
  else .stopped .stackSlotAbsent

/-! ## Keys, random source, program counter -/

/-- R210: `KeyRead(k)` with the whole 8-bit index. -/
def State.keyRead (s : State) (k : Byte) : Result Bool :=
  if h : k.toNat < 16 then .ok (s.keyAt ⟨k.toNat, h⟩) s else .raised .boundsError s

/-- R155: `draw_byte()`: the next byte of the random source, a free value (log entry 4). -/
def State.drawByte (s : State) : Result Byte := .ok (Config.randomByte s.draws) s.countDraw

/-- R103, R131: `PC <- (PC + 2) mod 65536`: the auto-advance, and a skip. -/
def State.advancePc (s : State) : State := s.setPc (s.pc + 2)

/-- R131: skip the next instruction when the condition holds. -/
def State.skipIf (s : State) (c : Bool) : State := if c then s.advancePc else s

end Sys2Proof.Machine
end

