-- ==== Sys2Proof/Machine/Flags.lean ====
section
/-! DEFINITION. What the flag register VF is set to, and the order in which flag and result are written
(10_state.md rule R22; 42_alu.md rules R146, R161). Each flag is the whole byte 0 or 1. -/

namespace Sys2Proof.Machine

/-- VF as a register number: `V[15]` (R22). -/
def vf : Reg := 15

/-- The byte 1 or 0 (R22). -/
def flagByte (c : Bool) : Byte := if c then 1 else 0

/-- R149: carry: 1 when the true sum exceeds 255. -/
def carryFlag (a b : Byte) : Byte := flagByte (decide (a.toNat + b.toNat > 255))

/-- R150, R152: 1 when `a` > `b`, strictly (C1). -/
def greaterFlag (a b : Byte) : Byte := flagByte (decide (a.toNat > b.toNat))

/-- R151: the bit shifted out at the bottom, `a[0]`. -/
def lowBitFlag (a : Byte) : Byte := flagByte (a.getLsbD 0)

/-- R153: the bit shifted out at the top, `a[7]`. -/
def highBitFlag (a : Byte) : Byte := flagByte (a.getLsbD 7)

/-- R146: write the flag to `V[15]` first and the result to `V[x]` second, both computed beforehand. -/
def State.setFlagThenReg (s : State) (x : Reg) (flag result : Byte) : State := (s.setReg vf flag).setReg x result

end Sys2Proof.Machine
end

