-- ==== Sys2Proof/Machine/Operands.lean ====
section
/-! DEFINITION. The operand forms (30_encoding.md rule R83; 43_index_memory.md rule R173). Registers are `State.reg`;
the immediates are used as they stand. -/

namespace Sys2Proof.Machine

/-- `zext_16(nnn)` (R83): an address field as a 16-bit value. -/
def zextAddr (nnn : Addr) : Word := nnn.setWidth 16

/-- `zext_16(V[x])` (R126, R171, R174): a register as a 16-bit value. -/
def zextByte (b : Byte) : Word := b.setWidth 16

/-- The base address of every data access: `I` as an unbounded natural (R173, R14). -/
def State.base (s : State) : Nat := s.i.toNat

/-- All register numbers, in order. -/
def allRegs : List Reg := [0, 1, 2, 3, 4, 5, 6, 7, 8, 9, 10, 11, 12, 13, 14, 15]

/-- `V[0..x]`, x included: the register range of `Fx55` and `Fx65` (R83, R176, R177). -/
def regsUpTo (x : Reg) : List Reg := allRegs.take (x.val + 1)

/-- The three decimal digits of a byte, one digit a byte: hundreds, tens, units (R175). -/
def bcdDigits (b : Byte) : List Byte :=
  [BitVec.ofNat 8 (b.toNat / 100), BitVec.ofNat 8 (b.toNat / 10 % 10), BitVec.ofNat 8 (b.toNat % 10)]

end Sys2Proof.Machine
end

