-- ==== Sys2Proof/Machine/Alu.lean ====
section
/-! DEFINITION. Register load, arithmetic, logic, shift and random (42_alu.md). Sources are read before anything is
written (R146). -/

namespace Sys2Proof.Machine

/-- R140 `6xkk`: `V[x] <- kk`. -/
def execLdVxKk (x : Reg) (kk : Byte) (s : State) : Host.Outcome State Fault Refusal := .next (s.setReg x kk)

/-- R141 `7xkk`: `V[x] <- (V[x] + kk) mod 256`, VF not written (R160). -/
def execAddVxKk (x : Reg) (kk : Byte) (s : State) : Host.Outcome State Fault Refusal :=
  .next (s.setReg x (s.reg x + kk))

/-- R142 `8xy0`: `V[x] <- V[y]`. -/
def execLdVxVy (x y : Reg) (s : State) : Host.Outcome State Fault Refusal := .next (s.setReg x (s.reg y))

/-- R143 `8xy1`: bitwise OR, VF not written (R160). -/
def execOrVxVy (x y : Reg) (s : State) : Host.Outcome State Fault Refusal := .next (s.setReg x (s.reg x ||| s.reg y))

/-- R144 `8xy2`: bitwise AND, VF not written (R160). -/
def execAndVxVy (x y : Reg) (s : State) : Host.Outcome State Fault Refusal := .next (s.setReg x (s.reg x &&& s.reg y))

/-- R145 `8xy3`: bitwise exclusive OR, VF not written (R160). -/
def execXorVxVy (x y : Reg) (s : State) : Host.Outcome State Fault Refusal := .next (s.setReg x (s.reg x ^^^ s.reg y))

/-- R149 `8xy4`: carry to VF, sum mod 256 to `V[x]`. -/
def execAddVxVy (x y : Reg) (s : State) : Host.Outcome State Fault Refusal :=
  .next (s.setFlagThenReg x (carryFlag (s.reg x) (s.reg y)) (s.reg x + s.reg y))

/-- R150 `8xy5`: VF is 1 when `V[x]` > `V[y]`; the difference mod 256 to `V[x]`. -/
def execSubVxVy (x y : Reg) (s : State) : Host.Outcome State Fault Refusal :=
  .next (s.setFlagThenReg x (greaterFlag (s.reg x) (s.reg y)) (s.reg x - s.reg y))

/-- R151 `8xy6`: shift `V[x]` right by one, old bit 0 to VF; `y` is ignored. -/
def execShrVx (x _y : Reg) (s : State) : Host.Outcome State Fault Refusal :=
  .next (s.setFlagThenReg x (lowBitFlag (s.reg x)) (s.reg x >>> 1))

/-- R152 `8xy7`: VF is 1 when `V[y]` > `V[x]`; `V[y]` minus `V[x]` mod 256 to `V[x]`. -/
def execSubnVxVy (x y : Reg) (s : State) : Host.Outcome State Fault Refusal :=
  .next (s.setFlagThenReg x (greaterFlag (s.reg y) (s.reg x)) (s.reg y - s.reg x))

/-- R153 `8xyE`: shift `V[x]` left by one, old bit 7 to VF; `y` is ignored. -/
def execShlVx (x _y : Reg) (s : State) : Host.Outcome State Fault Refusal :=
  .next (s.setFlagThenReg x (highBitFlag (s.reg x)) (s.reg x <<< 1))

/-- R154 `Cxkk`: `V[x] <- draw_byte() AND kk`. -/
def execRndVxKk (x : Reg) (kk : Byte) (s : State) : Host.Outcome State Fault Refusal :=
  s.drawByte.andThen fun r t => .next (t.setReg x (r &&& kk))

end Sys2Proof.Machine
end

