-- ==== Sys2Proof/Machine/Control.lean ====
section
/-! DEFINITION. Control transfer (41_control_flow.md) and the no-op (30_encoding.md rule R87). `PC` already holds the
address of the next instruction when a meaning starts (40_step_cycle.md rule R103). -/

namespace Sys2Proof.Machine

/-- R123 `00EE`: `PC <- Pop()`, the whole word. -/
def execRet (s : State) : Host.Outcome State Fault Refusal := s.pop.andThen fun w t => .next (t.setPc w)

/-- R124 `1nnn`: `PC <- zext_16(nnn)`. -/
def execJp (nnn : Addr) (s : State) : Host.Outcome State Fault Refusal := .next (s.setPc (zextAddr nnn))

/-- R125 `2nnn`: `Push(PC)`, then `PC <- zext_16(nnn)`. -/
def execCall (nnn : Addr) (s : State) : Host.Outcome State Fault Refusal :=
  (s.push s.pc).andThen fun _ t => .next (t.setPc (zextAddr nnn))

/-- R126 `Bnnn`: `PC <- zext_16(nnn) + zext_16(V[0])`, no mask. -/
def execJpV0Nnn (nnn : Addr) (s : State) : Host.Outcome State Fault Refusal :=
  .next (s.setPc (zextAddr nnn + zextByte (s.reg 0)))

/-- R127 `3xkk`: skip if `V[x]` = `kk`. -/
def execSeVxKk (x : Reg) (kk : Byte) (s : State) : Host.Outcome State Fault Refusal :=
  .next (s.skipIf (s.reg x == kk))

/-- R128 `4xkk`: skip if `V[x]` differs from `kk`. -/
def execSneVxKk (x : Reg) (kk : Byte) (s : State) : Host.Outcome State Fault Refusal :=
  .next (s.skipIf (s.reg x != kk))

/-- R129 `5xy0`: skip if `V[x]` = `V[y]`. -/
def execSeVxVy (x y : Reg) (s : State) : Host.Outcome State Fault Refusal := .next (s.skipIf (s.reg x == s.reg y))

/-- R130 `9xy0`: skip if `V[x]` differs from `V[y]`. -/
def execSneVxVy (x y : Reg) (s : State) : Host.Outcome State Fault Refusal := .next (s.skipIf (s.reg x != s.reg y))

/-- R87: an opcode that matches no row does nothing after the auto-advance, whatever it is. -/
def execUnmatched (_op : Word) (s : State) : Host.Outcome State Fault Refusal := .next s

end Sys2Proof.Machine
end

