-- ==== Sys2Proof/Machine/Display.lean ====
section
/-! DEFINITION. The framebuffer engine and its instructions (44_display.md). -/

namespace Sys2Proof.Machine

/-- R190, R191: `clear()`: every pixel false. -/
def Grid.clear : Grid := Vector.replicate Config.screenHeight (Vector.replicate Config.screenWidth false)

/-- R192, R195: the pixel in column `x` and row `y`, both reduced first. -/
def Grid.isSet (g : Grid) (x y : Nat) : Bool :=
  (g[y % 32]'(Nat.mod_lt _ (by decide)))[x % 64]'(Nat.mod_lt _ (by decide))

/-- R192, R193: the grid with that pixel flipped. -/
def Grid.flip (g : Grid) (x y : Nat) : Grid :=
  g.set (y % 32) ((g[y % 32]'(Nat.mod_lt _ (by decide))).set (x % 64) (!g.isSet x y) (Nat.mod_lt _ (by decide)))
    (Nat.mod_lt _ (by decide))

/-- R193, the inner loop's body: bit `7 - b` of the row byte at column `x + b`. The collision is tested before the
flip. The pair is (grid, collided). -/
def drawBit (x y : Nat) (row : Byte) (b : Nat) (acc : Grid × Bool) : Grid × Bool :=
  if row.getLsbD (7 - b) then (acc.1.flip (x + b) y, acc.2 || acc.1.isSet (x + b) y) else acc

/-- R193, one row: `b` from 0 to 7. -/
def drawRow (x y : Nat) (row : Byte) (acc : Grid × Bool) : Grid × Bool :=
  [0, 1, 2, 3, 4, 5, 6, 7].foldl (fun acc b => drawBit x y row b acc) acc

/-- R193, the outer loop: the rows in turn, each one row further down. -/
def drawRows (x : Nat) : Nat → List Byte → Grid × Bool → Grid × Bool
  | _, [], acc => acc
  | y, row :: rows, acc => drawRows x (y + 1) rows (drawRow x y row acc)

/-- R193: `DrawSprite(x, y, rows, n)` with n the number of rows: the new grid and `collided`. -/
def Grid.drawSprite (g : Grid) (x y : Nat) (rows : List Byte) : Grid × Bool := drawRows x y rows (g, false)

/-- R190 `00E0`: every pixel false, VF not written. -/
def execCls (s : State) : Host.Outcome State Fault Refusal := .next (s.setFb Grid.clear)

/-- R194: the write of grid and VF after the sprite's rows are fetched. -/
def State.drawAt (s : State) (x y : Byte) (rows : List Byte) : State :=
  let d := s.fb.drawSprite x.toNat y.toNat rows
  (s.setFb d.1).setReg vf (flagByte d.2)

/-- R194 `Dxyn`: all `n` bytes from `MEM[I]` up are fetched first, then the sprite is drawn at (`V[x]`, `V[y]`) and VF
gets the collision. -/
def execDrw (x y : Reg) (n : Fin 16) (s : State) : Host.Outcome State Fault Refusal :=
  (s.fetchBytes s.base n.val).andThen fun rows t => .next (t.drawAt (s.reg x) (s.reg y) rows)

end Sys2Proof.Machine
end

