-- ==== Sys2Proof/Machine/Index.lean ====
section
/-! DEFINITION. Index register and memory transfer (43_index_memory.md). None of these writes VF as a side effect
(R172), and the transfers leave `I` alone (R173). -/

namespace Sys2Proof.Machine

/-- R170 `Annn`: `I <- zext_16(nnn)`. -/
def execLdINnn (nnn : Addr) (s : State) : Host.Outcome State Fault Refusal := .next (s.setI (zextAddr nnn))

/-- R171 `Fx1E`: `I <- (I + zext_16(V[x])) mod 65536`. -/
def execAddIVx (x : Reg) (s : State) : Host.Outcome State Fault Refusal := .next (s.setI (s.i + zextByte (s.reg x)))

/-- R174 `Fx29`: `I <- zext_16(V[x]) * 5`, the whole byte. -/
def execLdFVx (x : Reg) (s : State) : Host.Outcome State Fault Refusal :=
  .next (s.setI (zextByte (s.reg x) * BitVec.ofNat 16 Config.glyphHeight))

/-- R175 `Fx33`: the three decimal digits of `V[x]` to `MEM[I]`, `MEM[I+1]`, `MEM[I+2]`. -/
def execLdBVx (x : Reg) (s : State) : Host.Outcome State Fault Refusal :=
  (s.storeBytes s.base (bcdDigits (s.reg x))).andThen fun _ t => .next t

/-- R176 `Fx55`: `V[0..x]` to `MEM[I..I+x]`. -/
def execLdMemVx (x : Reg) (s : State) : Host.Outcome State Fault Refusal :=
  (s.storeBytes s.base ((regsUpTo x).map s.reg)).andThen fun _ t => .next t

/-- R177 `Fx65`: `MEM[I..I+x]` to `V[0..x]`. -/
def execLdVxMem (x : Reg) (s : State) : Host.Outcome State Fault Refusal :=
  (s.loadRegs s.base (regsUpTo x)).andThen fun _ t => .next t

end Sys2Proof.Machine
end

