-- ==== Sys2Proof/Machine/Keys.lean ====
section
/-! DEFINITION. Key-conditional skips, key wait and timer access (45_keyboard_timers.md). -/

namespace Sys2Proof.Machine

/-- R211 `Ex9E`: skip if the key numbered `V[x]` is down. -/
def execSkpVx (x : Reg) (s : State) : Host.Outcome State Fault Refusal :=
  (s.keyRead (s.reg x)).andThen fun down t => .next (t.skipIf down)

/-- R212 `ExA1`: skip if the key numbered `V[x]` is up. -/
def execSknpVx (x : Reg) (s : State) : Host.Outcome State Fault Refusal :=
  (s.keyRead (s.reg x)).andThen fun down t => .next (t.skipIf (!down))

/-- R215 `Fx07`: `V[x] <- DT`. -/
def execLdVxDt (x : Reg) (s : State) : Host.Outcome State Fault Refusal := .next (s.setReg x s.dt)

/-- R213 `Fx0A`: `MODE <- AwaitingKey(x)`; the register is written by the key-down event that resolves the wait. -/
def execLdVxK (x : Reg) (s : State) : Host.Outcome State Fault Refusal := .next (s.setMode (.awaitingKey x))

/-- R216 `Fx15`: `DT <- V[x]`. -/
def execLdDtVx (x : Reg) (s : State) : Host.Outcome State Fault Refusal := .next (s.setDt (s.reg x))

/-- R217 `Fx18`: `ST <- V[x]`. -/
def execLdStVx (x : Reg) (s : State) : Host.Outcome State Fault Refusal := .next (s.setSt (s.reg x))

end Sys2Proof.Machine
end

