-- ==== Sys2Proof/Machine/HostCommands.lean ====
section
/-! DEFINITION. The host's commands other than `step` and `init`, and its queries and status outputs
(60_exceptions.md rule R260; 70_reset_and_hazards.md). `init` is `State.init`. -/

namespace Sys2Proof.Machine

/-- The copy and the jump of `load` (R284), after its checks. -/
def State.placeProgram (s : State) (bytes : List Byte) : State :=
  (s.setMem (s.mem.writeList Config.loadAddr bytes)).setPc (BitVec.ofNat 16 Config.loadAddr)

/-- R284, R285: `load(bytes)`: the size check, with `>=`, comes before the copy. -/
def State.load (s : State) (bytes : List Byte) : State :=
  if s.isFaulted then s
  else if Config.loadAddr + bytes.length ≥ Config.memSize then s.takeFault .programTooLarge
  else s.placeProgram bytes

/-- A timer after a tick: one less, and 0 stays 0 (R250). -/
def tickDown (b : Byte) : Byte := if b = 0 then 0 else b - 1

/-- R251: the `beep` that a `tick_timers` command gives in this state. -/
def State.beep (s : State) : Bool := !s.isFaulted && s.st != 0

/-- R250: the state after `tick_timers`. -/
def State.tickTimers (s : State) : State :=
  if s.isFaulted then s else (s.setDt (tickDown s.dt)).setSt (tickDown s.st)

/-- R214: a key-down event resolves a wait: the register gets the key index and `MODE` is running again. -/
def State.resolveWait (s : State) (k : Fin 16) : State :=
  match s.mode with
  | .awaitingKey r => (s.setReg r (BitVec.ofNat 8 k.val)).setMode .running
  | .running => s
  | .faulted _ => s

/-- R254, R255: `key_down(i)`. -/
def State.keyDown (s : State) (i : Nat) : State :=
  if s.isFaulted then s
  else if h : i < 16 then (s.setKey ⟨i, h⟩ true).resolveWait ⟨i, h⟩
  else s.takeFault .boundsError

/-- R255, R256: `key_up(i)`. -/
def State.keyUp (s : State) (i : Nat) : State :=
  if s.isFaulted then s
  else if h : i < 16 then s.setKey ⟨i, h⟩ false
  else s.takeFault .boundsError

/-- R257: the query `is_key_down(i)`, whose domain is 0 to 15. -/
def State.isKeyDown (s : State) (i : Fin 16) : Bool := s.keyAt i

/-- R261: the status output `awaiting_key`. -/
def State.awaitingKeyOut (s : State) : Bool :=
  match s.mode with
  | .awaitingKey _ => true
  | .running => false
  | .faulted _ => false

/-- R230, R231: the number of a cause. -/
def FaultCause.code : FaultCause → Nat
  | .boundsError => 1
  | .stackOverflow => 2
  | .stackUnderflow => 3
  | .programTooLarge => 4

/-- R261: the status output `fault`. -/
def State.faultOut (s : State) : Nat :=
  match s.mode with
  | .faulted c => c.code
  | .running => 0
  | .awaitingKey _ => 0

end Sys2Proof.Machine
end

