-- ==== Sys2Proof/Machine/Step.lean ====
section
/-! DEFINITION. The step cycle (40_step_cycle.md): fetch, advance, decode, execute. -/

namespace Sys2Proof.Machine

/-- R100 to R106: the `step` command. In `AwaitingKey` and in `Faulted` it does nothing (R101). -/
def step (s : State) : Host.Outcome State Fault Refusal :=
  match s.mode with
  | .running => (s.memRead2 s.pc.toNat).andThen fun op t => exec (decodeOp op) t.advancePc
  | .awaitingKey _ => .next s
  | .faulted _ => .next s

/-- The state in which the next `step` runs the instruction whose bits are `w` below `nbits`. A program comes into
memory by the `load` command only (R284, R287), so this is that load: the two bytes at 512, high byte first, `PC` 512,
and `MODE` running, without which `step` fetches nothing (log entry 1). -/
def State.withFetchWord (s : State) (nbits w : Nat) : State :=
  (s.setMode .running).load (opBytes (tableOp nbits w))

end Sys2Proof.Machine
end

