-- ==== Sys2Proof/Machine/Command.lean ====
section
/-! DEFINITION. The host's commands as one type (60_exceptions.md rule R260), and the query of a pixel. -/

namespace Sys2Proof.Machine

/-- The commands of R260 that can change the state. -/
inductive Command where
  | init
  | load (bytes : List Byte)
  | step
  | tickTimers
  | keyDown (i : Nat)
  | keyUp (i : Nat)
  deriving DecidableEq, Repr

/-- What a command does (R260). The result `beep` of `tick_timers` is `State.beep` of the state before it. -/
def command (c : Command) (s : State) : Host.Outcome State Fault Refusal :=
  match c with
  | .init => .next s.init
  | .load bytes => .next (s.load bytes)
  | .step => step s
  | .tickTimers => .next s.tickTimers
  | .keyDown i => .next (s.keyDown i)
  | .keyUp i => .next (s.keyUp i)

/-- R195: the query `is_pixel_set(x, y)`. -/
def State.isPixelSet (s : State) (x y : Nat) : Bool := s.fb.isSet x y

end Sys2Proof.Machine
end

