-- ==== Sys2Proof/Safety.lean ====
section
/-! DEFINITION. The terms in which claims are stated: the invariant of a run, the fields of the state and what it is
for only some of them to change, the access matrix of 10_state.md rule R43 and the fault table of 60_exceptions.md rule
R230. -/

namespace Sys2Proof.Machine

/-- What holds in every state a run can reach. -/
structure State.Inv (s : State) : Prop where
  /-- Memory is in its canonical form, so it lists no address of 4096 or more (R30). -/
  memWf : s.mem.wf = true
  /-- R25: `SP` is at most `STACK_CAPACITY`. -/
  spBound : s.sp.toNat ≤ Config.stackCapacity
  /-- R25: `SP` is `STACK_CAPACITY` only in `Faulted(StackOverflow)`. -/
  spFull : s.sp.toNat = Config.stackCapacity → s.mode = .faulted .stackOverflow
  /-- R33: slot 0 is never written; and the slots the machine does not have are never written. -/
  deadSlots : ∀ k, k = 0 ∨ Config.stackCapacity ≤ k → s.slot k = 0
  /-- R123: every return address on the stack is at most 4096. -/
  slotBound : ∀ k, (s.slot k).toNat ≤ 4096
  /-- R24: the largest value any instruction can leave in `PC` is 4350. -/
  pcBound : s.pc.toNat ≤ 4350

/-- The parts of the state a frame speaks of: each register by itself, every other field whole. -/
inductive Field where
  | v (r : Reg)
  | i
  | pc
  | sp
  | stk
  | dt
  | st
  | mem
  | fb
  | key
  | mode
  | draws
  deriving DecidableEq, Repr

/-- Two states hold the same in a field. Memory is compared byte by byte, through the read of one byte. -/
def Field.same : Field → State → State → Prop
  | .v r, s, t => t.reg r = s.reg r
  | .i, s, t => t.i = s.i
  | .pc, s, t => t.pc = s.pc
  | .sp, s, t => t.sp = s.sp
  | .stk, s, t => t.stk = s.stk
  | .dt, s, t => t.dt = s.dt
  | .st, s, t => t.st = s.st
  | .mem, s, t => ∀ a, t.mem.read a = s.mem.read a
  | .fb, s, t => t.fb = s.fb
  | .key, s, t => t.key = s.key
  | .mode, s, t => t.mode = s.mode
  | .draws, s, t => t.draws = s.draws

/-- The frame: from `s` to `t` every field outside the list is unchanged. -/
def OnlyChanges (fs : List Field) (s t : State) : Prop := ∀ f, f ∉ fs → f.same s t

end Sys2Proof.Machine

namespace Sys2Proof

open Sys2Proof.Machine

/-- The columns marked w in R43, row by row. An instruction that can fault also writes `MODE` (R43's last line).
That `Cxkk` changes `draws`, the model's own count of the draws, is not R43's (log entry 4). -/
def Instr.writes : Instr → List Field
  | .cls => [.fb]
  | .ret => [.pc, .sp, .mode]
  | .jp _ => [.pc]
  | .call _ => [.pc, .sp, .stk, .mode]
  | .seVxKk _ _ => [.pc]
  | .sneVxKk _ _ => [.pc]
  | .seVxVy _ _ => [.pc]
  | .ldVxKk x _ => [.v x]
  | .addVxKk x _ => [.v x]
  | .ldVxVy x _ => [.v x]
  | .orVxVy x _ => [.v x]
  | .andVxVy x _ => [.v x]
  | .xorVxVy x _ => [.v x]
  | .addVxVy x _ => [.v x, .v vf]
  | .subVxVy x _ => [.v x, .v vf]
  | .shrVx x _ => [.v x, .v vf]
  | .subnVxVy x _ => [.v x, .v vf]
  | .shlVx x _ => [.v x, .v vf]
  | .sneVxVy _ _ => [.pc]
  | .ldINnn _ => [.i]
  | .jpV0Nnn _ => [.pc]
  | .rndVxKk x _ => [.v x, .draws]
  | .drw _ _ _ => [.v vf, .fb, .mode]
  | .skpVx _ => [.pc, .mode]
  | .sknpVx _ => [.pc, .mode]
  | .ldVxDt x => [.v x]
  | .ldVxK _ => [.mode]
  | .ldDtVx _ => [.dt]
  | .ldStVx _ => [.st]
  | .addIVx _ => [.i]
  | .ldFVx _ => [.i]
  | .ldBVx _ => [.mem, .mode]
  | .ldMemVx _ => [.mem, .mode]
  | .ldVxMem x => .mode :: (regsUpTo x).map .v
  | .unmatched _ => []

/-- The columns marked r in R43, row by row. The column RNG of `Cxkk` is the model's own field `draws` (log entry 4). -/
def Instr.reads : Instr → List Field
  | .cls => []
  | .ret => [.sp, .stk]
  | .jp _ => []
  | .call _ => [.pc, .sp]
  | .seVxKk x _ => [.v x]
  | .sneVxKk x _ => [.v x]
  | .seVxVy x y => [.v x, .v y]
  | .ldVxKk _ _ => []
  | .addVxKk x _ => [.v x]
  | .ldVxVy _ y => [.v y]
  | .orVxVy x y => [.v x, .v y]
  | .andVxVy x y => [.v x, .v y]
  | .xorVxVy x y => [.v x, .v y]
  | .addVxVy x y => [.v x, .v y]
  | .subVxVy x y => [.v x, .v y]
  | .shrVx x _ => [.v x]
  | .subnVxVy x y => [.v x, .v y]
  | .shlVx x _ => [.v x]
  | .sneVxVy x y => [.v x, .v y]
  | .ldINnn _ => []
  | .jpV0Nnn _ => [.v 0]
  | .rndVxKk _ _ => [.draws]
  | .drw x y _ => [.v x, .v y, .i, .mem, .fb]
  | .skpVx x => [.v x, .key]
  | .sknpVx x => [.v x, .key]
  | .ldVxDt _ => [.dt]
  | .ldVxK _ => []
  | .ldDtVx x => [.v x]
  | .ldStVx x => [.v x]
  | .addIVx x => [.v x, .i]
  | .ldFVx x => [.v x]
  | .ldBVx x => [.v x, .i]
  | .ldMemVx x => .i :: (regsUpTo x).map .v
  | .ldVxMem _ => [.i, .mem]
  | .unmatched _ => []

/-- R230: the fault an instruction raises in a state, by the table's "when" column; `none` for no fault. -/
def Instr.faultCause (i : Instr) (s : State) : Option FaultCause :=
  match i with
  | .drw _ _ n => if 1 ≤ n.val ∧ s.i.toNat + n.val - 1 ≥ 4096 then some .boundsError else none
  | .ldBVx _ => if s.i.toNat + 2 ≥ 4096 then some .boundsError else none
  | .ldMemVx x => if s.i.toNat + x.val ≥ 4096 then some .boundsError else none
  | .ldVxMem x => if s.i.toNat + x.val ≥ 4096 then some .boundsError else none
  | .skpVx x => if (s.reg x).toNat ≥ 16 then some .boundsError else none
  | .sknpVx x => if (s.reg x).toNat ≥ 16 then some .boundsError else none
  | .call _ => if s.sp.toNat = Config.stackCapacity - 1 then some .stackOverflow else none
  | .ret => if s.sp.toNat = 0 then some .stackUnderflow else none
  | .cls => none
  | .jp _ => none
  | .seVxKk _ _ => none
  | .sneVxKk _ _ => none
  | .seVxVy _ _ => none
  | .ldVxKk _ _ => none
  | .addVxKk _ _ => none
  | .ldVxVy _ _ => none
  | .orVxVy _ _ => none
  | .andVxVy _ _ => none
  | .xorVxVy _ _ => none
  | .addVxVy _ _ => none
  | .subVxVy _ _ => none
  | .shrVx _ _ => none
  | .subnVxVy _ _ => none
  | .shlVx _ _ => none
  | .sneVxVy _ _ => none
  | .ldINnn _ => none
  | .jpV0Nnn _ => none
  | .rndVxKk _ _ => none
  | .ldVxDt _ => none
  | .ldVxK _ => none
  | .ldDtVx _ => none
  | .ldStVx _ => none
  | .addIVx _ => none
  | .ldFVx _ => none
  | .unmatched _ => none

/-- R22: the six instructions that write VF as a side effect. -/
def Instr.setsFlag : Instr → Bool
  | .addVxVy _ _ => true
  | .subVxVy _ _ => true
  | .shrVx _ _ => true
  | .subnVxVy _ _ => true
  | .shlVx _ _ => true
  | .drw _ _ _ => true
  | .cls => false
  | .ret => false
  | .jp _ => false
  | .call _ => false
  | .seVxKk _ _ => false
  | .sneVxKk _ _ => false
  | .seVxVy _ _ => false
  | .ldVxKk _ _ => false
  | .addVxKk _ _ => false
  | .ldVxVy _ _ => false
  | .orVxVy _ _ => false
  | .andVxVy _ _ => false
  | .xorVxVy _ _ => false
  | .sneVxVy _ _ => false
  | .ldINnn _ => false
  | .jpV0Nnn _ => false
  | .rndVxKk _ _ => false
  | .skpVx _ => false
  | .sknpVx _ => false
  | .ldVxDt _ => false
  | .ldVxK _ => false
  | .ldDtVx _ => false
  | .ldStVx _ => false
  | .addIVx _ => false
  | .ldFVx _ => false
  | .ldBVx _ => false
  | .ldMemVx _ => false
  | .ldVxMem _ => false
  | .unmatched _ => false

/-- The registers an instruction writes as its named result, not as a side effect (files 42, 43, 45). -/
def Instr.results : Instr → List Reg
  | .ldVxKk x _ => [x]
  | .addVxKk x _ => [x]
  | .ldVxVy x _ => [x]
  | .orVxVy x _ => [x]
  | .andVxVy x _ => [x]
  | .xorVxVy x _ => [x]
  | .addVxVy x _ => [x]
  | .subVxVy x _ => [x]
  | .shrVx x _ => [x]
  | .subnVxVy x _ => [x]
  | .shlVx x _ => [x]
  | .rndVxKk x _ => [x]
  | .ldVxDt x => [x]
  | .ldVxMem x => regsUpTo x
  | .cls => []
  | .ret => []
  | .jp _ => []
  | .call _ => []
  | .seVxKk _ _ => []
  | .sneVxKk _ _ => []
  | .seVxVy _ _ => []
  | .sneVxVy _ _ => []
  | .ldINnn _ => []
  | .jpV0Nnn _ => []
  | .drw _ _ _ => []
  | .skpVx _ => []
  | .sknpVx _ => []
  | .ldVxK _ => []
  | .ldDtVx _ => []
  | .ldStVx _ => []
  | .addIVx _ => []
  | .ldFVx _ => []
  | .ldBVx _ => []
  | .ldMemVx _ => []
  | .unmatched _ => []

end Sys2Proof

namespace Sys2Proof.Machine

/-- A run: commands in turn, in any order and number (R263), ending at the first stop. -/
def runCommands : List Command → State → Host.Outcome State Fault Refusal
  | [], s => .next s
  | c :: cs, s =>
    match command c s with
    | .next t => runCommands cs t
    | .fault r => .fault r
    | .refused r => .refused r

/-- The instruction answers a next state in which `V[x]` is `b` and nothing else has changed. -/
def WritesReg (i : Instr) (s : State) (x : Reg) (b : Byte) : Prop :=
  ∃ t, exec i s = .next t ∧ t.reg x = b ∧ OnlyChanges [.v x] s t

/-- The instruction answers a next state in which `V[x]` is `b`, VF is `flag` unless `x` is VF, and nothing else has
changed (R146: with `x` = 15 the result lands last). -/
def WritesFlagAndReg (i : Instr) (s : State) (x : Reg) (flag b : Nat) : Prop :=
  ∃ t, exec i s = .next t ∧ (t.reg x).toNat = b ∧ (x ≠ vf → (t.reg vf).toNat = flag) ∧ OnlyChanges [.v x, .v vf] s t

/-- The instruction answers a next state in which `PC` is 2 more if the condition holds, and nothing else has
changed (R131). -/
def SkipsIf (i : Instr) (s : State) (c : Prop) : Prop :=
  ∃ t, exec i s = .next t ∧ (c → t.pc = s.pc + 2) ∧ (¬c → t.pc = s.pc) ∧ OnlyChanges [.pc] s t

/-- The instruction answers a next state in which the fault is latched and, of the rest, only the fields of the list
have changed. -/
def Faults (i : Instr) (s : State) (c : FaultCause) (fs : List Field) : Prop :=
  ∃ t, exec i s = .next t ∧ t.mode = .faulted c ∧ OnlyChanges (.mode :: fs) s t

/-- R193: bit `7 - b` of sprite row `r` is 1. -/
def SpriteBit (rows : List Byte) (r b : Nat) : Prop :=
  b < 8 ∧ r < rows.length ∧ (rows.getD r 0).getLsbD (7 - b) = true

/-- R192, R193: some 1 bit of the sprite drawn at column `x` and row `y` lands on pixel (`px`, `py`). -/
def SpriteCovers (x y : Nat) (rows : List Byte) (px py : Nat) : Prop :=
  ∃ r b, SpriteBit rows r b ∧ (x + b) % 64 = px % 64 ∧ (y + r) % 32 = py % 32

/-- The `n` bytes of memory from `I` up: the sprite of `Dxyn` (R194). -/
def State.spriteRows (s : State) (n : Nat) : List Byte := (List.range n).map fun k => s.mem.read (s.i.toNat + k)

end Sys2Proof.Machine
end

