-- ==== Sys2Proof/Certificates/Slice0/Obligations.lean ====
section
/-! DEFINITION. The statements for the provers. Each formalises rules of spec/ named in OBLIGATIONS.json. `exec` acts on a
state whose `PC` the step has already advanced (40_step_cycle.md rule R103). -/

open Sys2Proof Sys2Proof.Machine

/-- A step in Running executes the instruction decoded at PC, with PC advanced by 2. -/
def Obligations.StepRunsDecodedInstruction : Prop :=
  ∀ (s : State) (i : Instr), s.mode = .running → s.pc.toNat + 1 < 4096 →
    decode [s.mem.read s.pc.toNat, s.mem.read (s.pc.toNat + 1)] = .ok (i, []) →
    i.wellFormed = true ∧ step s = exec i { s with pc := s.pc + 2 }

/-- A step outside Running does nothing; a fetch at 4095 or above latches BoundsError and changes only MODE. The
latch is the spec's decision D3 (log entry 5), the state left by a fault its decision D4 (log entry 6). -/
def Obligations.StepIdleOrFetchFault : Prop :=
  ∀ s : State,
    (s.mode ≠ .running → step s = .next s) ∧
    (s.mode = .running → 4095 ≤ s.pc.toNat →
      ∃ t, step s = .next t ∧ t.mode = .faulted .boundsError ∧ OnlyChanges [.mode] s t)

/-- Words of the spec's encoding vectors decode to the instructions they stand for. -/
def Obligations.SpecWordsDecode : Prop :=
  decodeOp 0x8AB4 = .addVxVy 10 11 ∧ decodeOp 0xD125 = .drw 1 2 5 ∧ decodeOp 0xF065 = .ldVxMem 0 ∧
  decodeOp 0x00E0 = .cls ∧ decodeOp 0x00EE = .ret ∧ decodeOp 0x8F06 = .shrVx 15 0 ∧ decodeOp 0xBFFF = .jpV0Nnn 0xFFF ∧
  decodeOp 0x1ABC = .jp 0xABC ∧ decodeOp 0xE19E = .skpVx 1 ∧ decodeOp 0xF30A = .ldVxK 3 ∧
  decodeOp 0x00E1 = .unmatched 0x00E1 ∧ decodeOp 0x5121 = .unmatched 0x5121 ∧ decodeOp 0x8128 = .unmatched 0x8128 ∧
  decodeOp 0xE1A0 = .unmatched 0xE1A0 ∧ decodeOp 0xF175 = .unmatched 0xF175

/-- Decoding the bytes of any well-formed instruction gives it back, and leaves the rest. -/
def Obligations.DecodeEncodeRoundTrip : Prop :=
  ∀ (i : Instr) (rest : List Byte), i.wellFormed = true → decode (encodeBytes i ++ rest) = .ok (i, rest)

/-- Every opcode decodes to a well-formed instruction whose encoding is that opcode. -/
def Obligations.EncodeDecodeRoundTrip : Prop :=
  ∀ op : Word, (decodeOp op).wellFormed = true ∧ encode (decodeOp op) = op

/-- The decoder gives row k's instruction exactly when (op AND mask) = match for row k. The exact match on fixed
digits is the spec's decision D14 (log entry 8). -/
def Obligations.DecodeFollowsOpcodeMap : Prop :=
  ∀ (op : Word) (r : Row), r ∈ opcodeMap → ((decodeOp op).rowNumber = r.num ↔ op &&& r.mask = r.value)

/-- The opcodes that decode to the no-op are exactly the six groups of the spec's list. R88 is derived in the spec;
the exact match on fixed digits is its decision D14 (log entry 8). -/
def Obligations.UnmatchedOpcodesExactly : Prop :=
  ∀ op : Word, decodeOp op = .unmatched op ↔
    (fieldI op = 0x0 ∧ fieldNNN op ≠ 0x0E0 ∧ fieldNNN op ≠ 0x0EE) ∨
    (fieldI op = 0x5 ∧ fieldN op ≠ 0) ∨
    (fieldI op = 0x8 ∧ (8 ≤ (fieldN op).val ∧ (fieldN op).val ≤ 13 ∨ (fieldN op).val = 15)) ∨
    (fieldI op = 0x9 ∧ fieldN op ≠ 0) ∨
    (fieldI op = 0xE ∧ fieldKK op ≠ 0x9E ∧ fieldKK op ≠ 0xA1) ∨
    (fieldI op = 0xF ∧ fieldKK op ∉ [0x07, 0x0A, 0x15, 0x18, 0x1E, 0x29, 0x33, 0x55, 0x65])

/-- A step on an opcode that matches no row advances PC by 2 and changes nothing else. -/
def Obligations.UnmatchedOpcodeIsNoOp : Prop :=
  (∀ s : State, s.mode = .running → s.pc.toNat + 1 < 4096 →
    (∀ r ∈ opcodeMap, (s.mem.read s.pc.toNat ++ s.mem.read (s.pc.toNat + 1)) &&& r.mask ≠ r.value) →
    step s = .next { s with pc := s.pc + 2 }) ∧
  (∀ (op : Word) (s : State), exec (.unmatched op) s = .next s) ∧
  (∀ s : State, 4096 ≤ s.pc.toNat + 1 → s.memRead2 s.pc.toNat = .raised .boundsError s)

/-- init leaves every piece of state at the value of the reset table, whatever it held before. MODE's reset value
is the spec's decision D3 (log entry 5); that the draw count survives is the model's form of an unreset random
source (log entry 4). -/
def Obligations.ResetLeavesTheTabulatedState : Prop :=
  (∀ s : State,
    (∀ r, s.init.reg r = 0) ∧ s.init.i = 0 ∧ s.init.pc = 0 ∧ s.init.sp = 0 ∧ s.init.dt = 0 ∧ s.init.st = 0 ∧
    s.init.mode = .running ∧ (∀ a, a < 80 → s.init.mem.read a = Config.fontByte a) ∧
    (∀ a, 80 ≤ a → a < 4096 → s.init.mem.read a = 0) ∧ (∀ k, s.init.slot k = 0) ∧
    (∀ x y, s.init.isPixelSet x y = false) ∧ (∀ k, s.init.isKeyDown k = false) ∧ s.init.draws = s.draws) ∧
  State.reset.init = State.reset

/-- The reset state satisfies the machine's invariant. -/
def Obligations.ResetSatisfiesInvariant : Prop :=
  State.reset.Inv

/-- Every step keeps the invariant: canonical memory, SP, stack and PC bounds. The bounds are those the spec
derives in R24, R25, R33 and R123. -/
def Obligations.StepKeepsInvariant : Prop :=
  ∀ s t : State, s.Inv → step s = .next t → t.Inv

/-- In every state with the invariant every host command answers a next state with the invariant. The step lemma
over commands. U9: every case is either a normal step or one of the four faults. -/
def Obligations.CommandKeepsInvariant : Prop :=
  ∀ (s : State) (c : Command), s.Inv → ∃ t, command c s = .next t ∧ t.Inv

/-- In every state with the invariant a step answers a next state: no opcode stops the machine. -/
def Obligations.StepAlwaysAnswers : Prop :=
  ∀ s : State, s.Inv → ∃ t, step s = .next t

/-- No instruction changes a field outside its w columns of the access matrix, MODE on a fault, and for Cxkk the
model's draw count. The frame of all 35 instructions; R43 is derived in the spec. That Cxkk changes `draws`, which
R43 does not have, is the model's own choice (log entry 4). Which bytes a store leaves alone is said by
StoreDecimalDigits to BlockTransferFaults. -/
def Obligations.InstructionsWriteOnlyTheMatrix : Prop :=
  ∀ (i : Instr) (s t : State), exec i s = .next t → OnlyChanges i.writes s t

/-- What an instruction does depends only on its r columns of the access matrix, with the model's draw count for
RNG. R43 is derived in the spec. It includes that no instruction reads ST, MODE or (but 2nnn) PC (R24, R27, R28).
The case of Cxkk rests on the model's own choice that equal `draws` give equal bytes (log entry 4, unsafe for two
runs compared; the spec's decision D17 leaves every draw free). -/
def Obligations.InstructionsReadOnlyTheMatrix : Prop :=
  ∀ (i : Instr) (A : Field → Prop) (s s' t : State),
    (∀ f ∈ i.reads, A f) → (∀ f, A f → f.same s s') → exec i s = .next t →
    ∃ t', exec i s' = .next t' ∧ ∀ f, A f → f.same t t'

/-- VF changes as a side effect of exactly six instructions, which leave 0 or 1 in it. That the other instructions
leave VF alone is the literal reading of the table's silence, the spec's decision D27 (log entry 11). -/
def Obligations.OnlySixInstructionsWriteTheFlag : Prop :=
  ∀ (i : Instr) (s t : State), s.mode = .running → exec i s = .next t → vf ∉ i.results →
    (i.setsFlag = false → t.reg vf = s.reg vf) ∧
    (i.setsFlag = true → t.mode = .running → t.reg vf = 0 ∨ t.reg vf = 1)

/-- From a state with the invariant an instruction faults exactly when the fault table says, with the table's
cause. The latch is the spec's decision D3 (log entry 5), the key index check D8 (log entry 9). The premise Inv
rules out an `SP` above the last slot, for which R230 has no row (log entry 2; CallAboveCapacityOverflows says what
the model does there). -/
def Obligations.FaultTable : Prop :=
  ∀ (i : Instr) (s t : State) (c : FaultCause), s.Inv → s.mode = .running → exec i s = .next t →
    (t.mode = .faulted c ↔ i.faultCause s = some c)

/-- In Faulted every command but init does nothing, beep is false, and init leaves Faulted; the two status outputs
in every MODE. The latch is the spec's own decision D3 (log entry 5), the codes its decision D5 (log entry 13). -/
def Obligations.FaultIsLatchedUntilInit : Prop :=
  ∀ s : State,
    (∀ c, s.mode = .faulted c →
      (∀ k : Command, k ≠ .init → command k s = .next s) ∧ s.beep = false ∧
      (∃ t, command .init s = .next t ∧ t.mode = .running)) ∧
    (s.faultOut = 0 ↔ s.mode = .running ∨ ∃ r, s.mode = .awaitingKey r) ∧
    (s.faultOut = 1 ↔ s.mode = .faulted .boundsError) ∧ (s.faultOut = 2 ↔ s.mode = .faulted .stackOverflow) ∧
    (s.faultOut = 3 ↔ s.mode = .faulted .stackUnderflow) ∧ (s.faultOut = 4 ↔ s.mode = .faulted .programTooLarge) ∧
    (s.awaitingKeyOut = true ↔ ∃ r, s.mode = .awaitingKey r)

/-- MemRead and MemWrite of one byte: bounds, value, and nothing else. -/
def Obligations.ByteMemoryPrimitives : Prop :=
  ∀ (s : State) (a : Nat) (b : Byte),
    (a < 4096 → s.memRead a = .ok (s.mem.read a) s ∧
      ∃ t, s.memWrite a b = .ok () t ∧ t.memRead a = .ok b t ∧
        (∀ a', a' ≠ a → t.mem.read a' = s.mem.read a') ∧ OnlyChanges [.mem] s t) ∧
    (4096 ≤ a → s.memRead a = .raised .boundsError s ∧ s.memWrite a b = .raised .boundsError s)

/-- MemRead of two bytes is big-endian and faults when the second byte is out of range. -/
def Obligations.ShortMemoryRead : Prop :=
  ∀ (s : State) (a : Nat),
    (a + 1 < 4096 → ∃ w, s.memRead2 a = .ok w s ∧ w.toNat = (s.mem.read a).toNat * 256 + (s.mem.read (a + 1)).toNat) ∧
    (4096 ≤ a + 1 → s.memRead2 a = .raised .boundsError s)

/-- Push and Pop: round trip, overflow with SP left incremented, underflow with nothing changed. -/
def Obligations.StackPrimitives : Prop :=
  ∀ (s : State) (w : Word), s.sp.toNat < Config.stackCapacity →
    (s.sp.toNat + 1 < Config.stackCapacity →
      ∃ t, s.push w = .ok () t ∧ t.sp.toNat = s.sp.toNat + 1 ∧ t.slot t.sp.toNat = w ∧
        (∀ k, k ≠ t.sp.toNat → t.slot k = s.slot k) ∧ OnlyChanges [.sp, .stk] s t ∧
        ∃ u, t.pop = .ok w u ∧ u.sp = s.sp ∧ OnlyChanges [.sp] t u) ∧
    (s.sp.toNat + 1 = Config.stackCapacity →
      ∃ t, s.push w = .raised .stackOverflow t ∧ t.sp.toNat = Config.stackCapacity ∧ OnlyChanges [.sp] s t) ∧
    (s.sp.toNat = 0 → s.pop = .raised .stackUnderflow s) ∧
    (0 < s.sp.toNat →
      ∃ t, s.pop = .ok (s.slot s.sp.toNat) t ∧ t.sp.toNat = s.sp.toNat - 1 ∧ OnlyChanges [.sp] s t)

/-- 1nnn sets PC to nnn; at 4095 the next fetch faults; a jump to itself repeats the state. -/
def Obligations.JumpSetsPc : Prop :=
  ∀ (nnn : Addr) (s : State), decodeOp (opNNN 0x1 nnn) = .jp nnn ∧
    (∃ t, exec (.jp nnn) s = .next t ∧ t.pc.toNat = nnn.toNat ∧ OnlyChanges [.pc] s t ∧
      (nnn.toNat = 4095 → t.memRead2 t.pc.toNat = .raised .boundsError t)) ∧
    (s.mode = .running → s.pc.toNat = nnn.toNat → nnn.toNat < 4095 →
      s.mem.read nnn.toNat ++ s.mem.read (nnn.toNat + 1) = opNNN 0x1 nnn → step s = .next s)

/-- 2nnn pushes PC and jumps; at the last slot it faults with SP at the capacity. Latch and state left by the
fault: the spec's decisions D3, D4 (log entries 5, 6). -/
def Obligations.CallPushesAndJumps : Prop :=
  ∀ (nnn : Addr) (s : State),
    (s.sp.toNat + 1 < Config.stackCapacity →
      ∃ t, exec (.call nnn) s = .next t ∧ t.pc.toNat = nnn.toNat ∧ t.sp.toNat = s.sp.toNat + 1 ∧
        t.slot (s.sp.toNat + 1) = s.pc ∧ (∀ k, k ≠ s.sp.toNat + 1 → t.slot k = s.slot k) ∧
        OnlyChanges [.pc, .sp, .stk] s t) ∧
    (s.sp.toNat + 1 = Config.stackCapacity →
      ∃ t, exec (.call nnn) s = .next t ∧ t.mode = .faulted .stackOverflow ∧
        t.sp.toNat = Config.stackCapacity ∧ OnlyChanges [.sp, .mode] s t)

/-- 00EE pops the whole word into PC; on the empty stack it faults with nothing else changed. The latch is the
spec's decision D3 (log entry 5). -/
def Obligations.ReturnPopsPc : Prop :=
  ∀ s : State,
    (0 < s.sp.toNat → s.sp.toNat < Config.stackCapacity →
      ∃ t, exec .ret s = .next t ∧ t.pc = s.slot s.sp.toNat ∧ t.sp.toNat = s.sp.toNat - 1 ∧
        OnlyChanges [.pc, .sp] s t) ∧
    (s.sp.toNat = 0 → Faults .ret s .stackUnderflow [])

/-- 00EE with SP naming a slot the machine does not have stops the model by name. The model's own choice, log entry
2: safe, and unreachable by StepKeepsInvariant. -/
def Obligations.ReturnFromAbsentSlotStops : Prop :=
  ∀ s : State, Config.stackCapacity ≤ s.sp.toNat → exec .ret s = .fault .stackSlotAbsent

/-- A call whose target holds 00EE comes back to the instruction after the call, with SP and the live stack
restored. -/
def Obligations.CallThenReturnComesBack : Prop :=
  ∀ (s : State) (nnn : Addr), s.mode = .running → s.pc.toNat + 1 < 4096 → nnn.toNat + 1 < 4096 →
    s.sp.toNat + 1 < Config.stackCapacity →
    s.mem.read s.pc.toNat ++ s.mem.read (s.pc.toNat + 1) = opNNN 0x2 nnn →
    s.mem.read nnn.toNat ++ s.mem.read (nnn.toNat + 1) = (0x00EE : Word) →
    ∃ t u, step s = .next t ∧ step t = .next u ∧ u.pc = s.pc + 2 ∧ (∀ k, k ≠ s.sp.toNat + 1 → u.slot k = s.slot k) ∧
      OnlyChanges [.pc, .stk] s u

/-- Bnnn sets PC to nnn + V0 without a mask; 4095 or more makes the next fetch fault. -/
def Obligations.IndexedJumpAddsV0 : Prop :=
  ∀ (nnn : Addr) (s : State), decodeOp (opNNN 0xB nnn) = .jpV0Nnn nnn ∧
    ∃ t, exec (.jpV0Nnn nnn) s = .next t ∧ t.pc.toNat = nnn.toNat + (s.reg 0).toNat ∧ OnlyChanges [.pc] s t ∧
      (4095 ≤ nnn.toNat + (s.reg 0).toNat → t.memRead2 t.pc.toNat = .raised .boundsError t)

/-- 3xkk skips if Vx = kk, 4xkk if Vx differs; nothing but PC changes. -/
def Obligations.SkipsOnImmediate : Prop :=
  ∀ (x : Reg) (kk : Byte) (s : State),
    decodeOp (opXKK 0x3 x kk) = .seVxKk x kk ∧ SkipsIf (.seVxKk x kk) s (s.reg x = kk) ∧
    decodeOp (opXKK 0x4 x kk) = .sneVxKk x kk ∧ SkipsIf (.sneVxKk x kk) s (s.reg x ≠ kk)

/-- 5xy0 skips if Vx = Vy, 9xy0 if they differ; nothing but PC changes. That n is tested is the spec's decision D14
(log entry 8). -/
def Obligations.SkipsOnRegisters : Prop :=
  ∀ (x y : Reg) (n : Fin 16) (s : State),
    decodeOp (opXYN 0x5 x y 0) = .seVxVy x y ∧ SkipsIf (.seVxVy x y) s (s.reg x = s.reg y) ∧
    decodeOp (opXYN 0x9 x y 0) = .sneVxVy x y ∧ SkipsIf (.sneVxVy x y) s (s.reg x ≠ s.reg y) ∧
    (n ≠ 0 → decodeOp (opXYN 0x5 x y n) = .unmatched (opXYN 0x5 x y n) ∧
      decodeOp (opXYN 0x9 x y n) = .unmatched (opXYN 0x9 x y n))

/-- 6xkk loads kk; 7xkk adds kk modulo 256 with no carry. That VF is left alone is the literal reading of the
table's silence, the spec's decision D27 (log entry 11). -/
def Obligations.LoadAndAddImmediate : Prop :=
  ∀ (x : Reg) (kk : Byte) (s : State),
    decodeOp (opXKK 0x6 x kk) = .ldVxKk x kk ∧ WritesReg (.ldVxKk x kk) s x kk ∧
    decodeOp (opXKK 0x7 x kk) = .addVxKk x kk ∧
    WritesReg (.addVxKk x kk) s x (BitVec.ofNat 8 (((s.reg x).toNat + kk.toNat) % 256)) ∧
    ∀ t, exec (.ldVxKk x kk) s = .next t → WritesReg (.addVxKk x kk) t x (BitVec.ofNat 8 (2 * kk.toNat % 256))

/-- 8xy0 copies Vy; 8xy1, 8xy2, 8xy3 are bitwise OR, AND, XOR; VF is not touched. That VF is left alone is the
literal reading of the table's silence, the spec's decision D27 (log entry 11). -/
def Obligations.CopyAndLogic : Prop :=
  ∀ (x y : Reg) (s : State),
    decodeOp (opXYN 0x8 x y 0) = .ldVxVy x y ∧ WritesReg (.ldVxVy x y) s x (s.reg y) ∧
    decodeOp (opXYN 0x8 x y 1) = .orVxVy x y ∧
    (∃ b : Byte, WritesReg (.orVxVy x y) s x b ∧
      ∀ k, b.getLsbD k = ((s.reg x).getLsbD k || (s.reg y).getLsbD k)) ∧
    decodeOp (opXYN 0x8 x y 2) = .andVxVy x y ∧
    (∃ b : Byte, WritesReg (.andVxVy x y) s x b ∧
      ∀ k, b.getLsbD k = ((s.reg x).getLsbD k && (s.reg y).getLsbD k)) ∧
    decodeOp (opXYN 0x8 x y 3) = .xorVxVy x y ∧
    (∃ b : Byte, WritesReg (.xorVxVy x y) s x b ∧
      ∀ k, b.getLsbD k = ((s.reg x).getLsbD k ^^ (s.reg y).getLsbD k))

/-- 8xy4: Vx gets the sum modulo 256 and VF the carry; with x = 15 the sum stays. -/
def Obligations.AddWithCarry : Prop :=
  ∀ (x y : Reg) (s : State), decodeOp (opXYN 0x8 x y 4) = .addVxVy x y ∧
    WritesFlagAndReg (.addVxVy x y) s x (if (s.reg x).toNat + (s.reg y).toNat > 255 then 1 else 0)
      (((s.reg x).toNat + (s.reg y).toNat) % 256)

/-- 8xy5 and 8xy7: difference modulo 256, VF 1 exactly on strictly greater. Latched operands and the strict flag
are the spec's decisions D7 and C1 (log entry 7). -/
def Obligations.SubtractBothWays : Prop :=
  ∀ (x y : Reg) (s : State),
    WritesFlagAndReg (.subVxVy x y) s x (if (s.reg x).toNat > (s.reg y).toNat then 1 else 0)
      (((s.reg x).toNat + 256 - (s.reg y).toNat) % 256) ∧
    WritesFlagAndReg (.subnVxVy x y) s x (if (s.reg y).toNat > (s.reg x).toNat then 1 else 0)
      (((s.reg y).toNat + 256 - (s.reg x).toNat) % 256)

/-- 8xy6 and 8xyE: halve or double Vx, VF the bit shifted out; Vy is ignored. Latched operand: D7 (log entry 7);
V[y] unused: D27 (log entry 11). -/
def Obligations.ShiftByOne : Prop :=
  ∀ (x y : Reg) (s : State),
    WritesFlagAndReg (.shrVx x y) s x ((s.reg x).toNat % 2) ((s.reg x).toNat / 2) ∧
    WritesFlagAndReg (.shlVx x y) s x ((s.reg x).toNat / 128) (2 * (s.reg x).toNat % 256)

/-- Cxkk writes some byte AND kk to Vx: every bit that is 0 in kk is 0. The byte is a free value (log entry 4): the
statement holds for every one. -/
def Obligations.RandomUnderMask : Prop :=
  ∀ (x : Reg) (kk : Byte) (s : State),
    ∃ t, exec (.rndVxKk x kk) s = .next t ∧ t.reg x = Config.randomByte s.draws &&& kk ∧
      (∀ k, kk.getLsbD k = false → (t.reg x).getLsbD k = false) ∧ t.draws = s.draws + 1 ∧
      OnlyChanges [.v x, .draws] s t

/-- Annn sets I to nnn and changes nothing else. -/
def Obligations.LoadIndex : Prop :=
  ∀ (nnn : Addr) (s : State), decodeOp (opNNN 0xA nnn) = .ldINnn nnn ∧
    ∃ t, exec (.ldINnn nnn) s = .next t ∧ t.i.toNat = nnn.toNat ∧ t.i.toNat ≤ 4095 ∧ OnlyChanges [.i] s t

/-- Fx1E adds Vx to I modulo 65536 with no flag; Fx29 sets I to 5 times the whole Vx. The spec's decisions D10 and
D24 (log entry 10). -/
def Obligations.AddToIndexAndGlyphAddress : Prop :=
  ∀ (x : Reg) (s : State),
    (∃ t, exec (.addIVx x) s = .next t ∧ t.i.toNat = (s.i.toNat + (s.reg x).toNat) % 65536 ∧ OnlyChanges [.i] s t) ∧
    (∃ t, exec (.ldFVx x) s = .next t ∧ t.i.toNat = (s.reg x).toNat * 5 ∧ OnlyChanges [.i] s t)

/-- Fx33 stores hundreds, tens and units of Vx at I, I+1, I+2 and nothing else. That I is unchanged is the spec's
decision D27 (log entry 11). -/
def Obligations.StoreDecimalDigits : Prop :=
  ∀ (x : Reg) (s : State), s.i.toNat + 2 < 4096 →
    ∃ t, exec (.ldBVx x) s = .next t ∧ (t.mem.read s.i.toNat).toNat = (s.reg x).toNat / 100 ∧
      (t.mem.read (s.i.toNat + 1)).toNat = (s.reg x).toNat / 10 % 10 ∧
      (t.mem.read (s.i.toNat + 2)).toNat = (s.reg x).toNat % 10 ∧
      (∀ a, a < s.i.toNat ∨ s.i.toNat + 2 < a → t.mem.read a = s.mem.read a) ∧ OnlyChanges [.mem] s t

/-- Fx33 past the end of memory keeps the digits that fit, then latches BoundsError. The spec's decision D4 (log
entry 6). -/
def Obligations.StoreDecimalDigitsFault : Prop :=
  ∀ (x : Reg) (s : State), 4096 ≤ s.i.toNat + 2 →
    ∃ t, exec (.ldBVx x) s = .next t ∧ t.mode = .faulted .boundsError ∧
      (s.i.toNat < 4096 → (t.mem.read s.i.toNat).toNat = (s.reg x).toNat / 100) ∧
      (s.i.toNat + 1 < 4096 → (t.mem.read (s.i.toNat + 1)).toNat = (s.reg x).toNat / 10 % 10) ∧
      (∀ a, a < s.i.toNat ∨ 4096 ≤ a → t.mem.read a = s.mem.read a) ∧ OnlyChanges [.mem, .mode] s t

/-- Fx55 stores V0 to Vx at I to I+x and nothing else. That I is unchanged is the spec's decision D27 (log entry
11). -/
def Obligations.StoreRegisters : Prop :=
  ∀ (x : Reg) (s : State), s.i.toNat + x.val < 4096 →
    ∃ t, exec (.ldMemVx x) s = .next t ∧ (∀ r : Reg, r ≤ x → t.mem.read (s.i.toNat + r.val) = s.reg r) ∧
      (∀ a, a < s.i.toNat ∨ s.i.toNat + x.val < a → t.mem.read a = s.mem.read a) ∧ OnlyChanges [.mem] s t

/-- Fx65 loads V0 to Vx from I to I+x and nothing else. That I is unchanged is the spec's decision D27 (log entry
11). -/
def Obligations.LoadRegisters : Prop :=
  ∀ (x : Reg) (s : State), s.i.toNat + x.val < 4096 →
    ∃ t, exec (.ldVxMem x) s = .next t ∧ (∀ r : Reg, r ≤ x → t.reg r = s.mem.read (s.i.toNat + r.val)) ∧
      OnlyChanges ((regsUpTo x).map .v) s t

/-- Fx55 and Fx65 past the end of memory keep what was transferred, then latch BoundsError. The spec's decision D4
(log entry 6). -/
def Obligations.BlockTransferFaults : Prop :=
  ∀ (x : Reg) (s : State), 4096 ≤ s.i.toNat + x.val →
    (∃ t, exec (.ldMemVx x) s = .next t ∧ t.mode = .faulted .boundsError ∧
      (∀ r : Reg, s.i.toNat + r.val < 4096 → t.mem.read (s.i.toNat + r.val) = s.reg r) ∧
      (∀ a, a < s.i.toNat ∨ 4096 ≤ a → t.mem.read a = s.mem.read a) ∧ OnlyChanges [.mem, .mode] s t) ∧
    (∃ t, exec (.ldVxMem x) s = .next t ∧ t.mode = .faulted .boundsError ∧
      (∀ r : Reg, s.i.toNat + r.val < 4096 → t.reg r = s.mem.read (s.i.toNat + r.val)) ∧
      (∀ r : Reg, 4096 ≤ s.i.toNat + r.val → t.reg r = s.reg r) ∧
      OnlyChanges (.mode :: (regsUpTo x).map .v) s t)

/-- What Fx55 stored, Fx65 with the same I and x loads back. -/
def Obligations.StoredRegistersLoadBack : Prop :=
  ∀ (x : Reg) (s u : State), s.i.toNat + x.val < 4096 →
    ∃ t, exec (.ldMemVx x) s = .next t ∧
      ((∀ a, u.mem.read a = t.mem.read a) → u.i = s.i →
        ∃ w, exec (.ldVxMem x) u = .next w ∧ ∀ r : Reg, r ≤ x → w.reg r = s.reg r)

/-- Code stored by Fx55 right after itself is what the next step executes. R62 derives fetch coherence. -/
def Obligations.StoredCodeIsFetchedAtOnce : Prop :=
  ∀ (s : State) (x : Reg), s.mode = .running → s.mem.read s.pc.toNat ++ s.mem.read (s.pc.toNat + 1) = opXKK 0xF x 0x55 →
    1 ≤ x.val → s.i.toNat = s.pc.toNat + 2 → s.i.toNat + x.val < 4096 →
    ∃ t, step s = .next t ∧ step t = exec (decodeOp (s.reg 0 ++ s.reg 1)) { t with pc := t.pc + 2 }

/-- 00E0 turns every pixel off, is idempotent, and changes nothing else. -/
def Obligations.ClearScreen : Prop :=
  decodeOp 0x00E0 = .cls ∧
  ∀ s : State, ∃ t, exec .cls s = .next t ∧ (∀ x y, t.isPixelSet x y = false) ∧ OnlyChanges [.fb] s t ∧
    exec .cls t = .next t

/-- DrawSprite flips exactly the covered pixels and reports whether one of them was on. The loops of R193 against
its pixel-by-pixel meaning; that no pixel is visited twice is derived in R193. -/
def Obligations.SpriteFlipsAndCollides : Prop :=
  ∀ (g : Grid) (x y : Nat) (rows : List Byte), rows.length ≤ 15 →
    (∀ px py, (g.drawSprite x y rows).1.isSet px py = true ↔ (g.isSet px py = true ↔ ¬ SpriteCovers x y rows px py)) ∧
    ((g.drawSprite x y rows).2 = true ↔ ∃ r b, SpriteBit rows r b ∧ g.isSet (x + b) (y + r) = true)

/-- Drawing the same sprite twice at the same place restores the grid. R194's remark that the second draw collides
if the sprite has any 1 bit is meant for pixels that were off, as in its example; here it is said for every grid. -/
def Obligations.SpriteDrawnTwiceRestores : Prop :=
  ∀ (g : Grid) (x y : Nat) (rows : List Byte), rows.length ≤ 15 →
    ((g.drawSprite x y rows).1.drawSprite x y rows).1 = g ∧
    (((g.drawSprite x y rows).1.drawSprite x y rows).2 = true ↔
      ∃ r b, SpriteBit rows r b ∧ g.isSet (x + b) (y + r) = false)

/-- Dxyn draws the n bytes at I at (Vx, Vy) and writes the collision to VF. That I is unchanged is the spec's
decision D27 (log entry 11). -/
def Obligations.DrawInstruction : Prop :=
  ∀ (x y : Reg) (n : Fin 16) (s : State), n.val = 0 ∨ s.i.toNat + n.val ≤ 4096 →
    ∃ t, exec (.drw x y n) s = .next t ∧
      t.fb = (s.fb.drawSprite (s.reg x).toNat (s.reg y).toNat (s.spriteRows n.val)).1 ∧
      (t.reg vf = 1 ↔ (s.fb.drawSprite (s.reg x).toNat (s.reg y).toNat (s.spriteRows n.val)).2 = true) ∧
      (t.reg vf = 0 ∨ t.reg vf = 1) ∧ (n.val = 0 → t.fb = s.fb ∧ t.reg vf = 0) ∧ OnlyChanges [.fb, .v vf] s t

/-- Dxyn with a row outside memory latches BoundsError and leaves grid and VF alone. The spec's decision D15 (log
entry 12). -/
def Obligations.DrawInstructionFault : Prop :=
  ∀ (x y : Reg) (n : Fin 16) (s : State), 1 ≤ n.val → 4096 ≤ s.i.toNat + n.val - 1 →
    Faults (.drw x y n) s .boundsError []

/-- is_pixel_set reads the pixel at the coordinates modulo 64 and 32. -/
def Obligations.PixelQueryWraps : Prop :=
  ∀ (s : State) (x y : Nat),
    (∀ (col : Fin 64) (row : Fin 32), col.val = x % 64 → row.val = y % 32 → s.isPixelSet x y = s.fb[row][col]) ∧
    s.isPixelSet (x + 64) y = s.isPixelSet x y ∧ s.isPixelSet x (y + 32) = s.isPixelSet x y

/-- Ex9E skips if key Vx is down, ExA1 if it is up; an index of 16 or more latches BoundsError. The spec's decision
D8 (log entry 9). -/
def Obligations.KeySkips : Prop :=
  ∀ (x : Reg) (s : State),
    (∀ h : (s.reg x).toNat < 16,
      SkipsIf (.skpVx x) s (s.isKeyDown ⟨(s.reg x).toNat, h⟩ = true) ∧
      SkipsIf (.sknpVx x) s (s.isKeyDown ⟨(s.reg x).toNat, h⟩ = false)) ∧
    (16 ≤ (s.reg x).toNat → Faults (.skpVx x) s .boundsError [] ∧ Faults (.sknpVx x) s .boundsError [])

/-- Fx0A only enters AwaitingKey(x); the next valid key_down writes Vx and resumes. The spec's decisions D16 and
D28 (log entry 12). -/
def Obligations.KeyWaitEntersAndResolves : Prop :=
  (∀ (x : Reg) (s : State), ∃ t, exec (.ldVxK x) s = .next t ∧ t.mode = .awaitingKey x ∧ OnlyChanges [.mode] s t) ∧
  ∀ (s : State) (r k : Fin 16), s.mode = .awaitingKey r →
    step s = .next s ∧ s.tickTimers.mode = .awaitingKey r ∧ (s.keyUp k.val).mode = .awaitingKey r ∧
    (s.keyDown k.val).isKeyDown k = true ∧ (∀ j, j ≠ k → (s.keyDown k.val).isKeyDown j = s.isKeyDown j) ∧
    ((s.keyDown k.val).reg r).toNat = k.val ∧ (s.keyDown k.val).mode = .running ∧
    OnlyChanges [.key, .v r, .mode] s (s.keyDown k.val)

/-- key_down and key_up set and clear one key; an index of 16 or more latches BoundsError. The latch is the spec's
decision D3 (log entry 5); that key_up leaves a wait alone its decision D16 (log entry 12). -/
def Obligations.KeyCommands : Prop :=
  ∀ (s : State) (i : Nat),
    (s.mode = .running → ∀ h : i < 16, (s.keyDown i).isKeyDown ⟨i, h⟩ = true ∧
      (∀ j : Fin 16, j.val ≠ i → (s.keyDown i).isKeyDown j = s.isKeyDown j) ∧ OnlyChanges [.key] s (s.keyDown i)) ∧
    (s.isFaulted = false → ∀ h : i < 16, (s.keyUp i).isKeyDown ⟨i, h⟩ = false ∧
      (∀ j : Fin 16, j.val ≠ i → (s.keyUp i).isKeyDown j = s.isKeyDown j) ∧ OnlyChanges [.key] s (s.keyUp i)) ∧
    (s.isFaulted = false → 16 ≤ i → (s.keyDown i).mode = .faulted .boundsError ∧ (s.keyUp i).mode = .faulted .boundsError ∧
      OnlyChanges [.mode] s (s.keyDown i) ∧ OnlyChanges [.mode] s (s.keyUp i))

/-- Fx07 reads DT into Vx, Fx15 and Fx18 load DT and ST from Vx; nothing else changes. That beep is the result of
the tick is the spec's decision D23 (log entry 13). -/
def Obligations.TimerInstructions : Prop :=
  ∀ (x : Reg) (s : State),
    decodeOp (opXKK 0xF x 0x07) = .ldVxDt x ∧ WritesReg (.ldVxDt x) s x s.dt ∧
    decodeOp (opXKK 0xF x 0x15) = .ldDtVx x ∧
    (∃ t, exec (.ldDtVx x) s = .next t ∧ t.dt = s.reg x ∧ OnlyChanges [.dt] s t) ∧
    decodeOp (opXKK 0xF x 0x18) = .ldStVx x ∧
    (∃ t, exec (.ldStVx x) s = .next t ∧ t.st = s.reg x ∧ OnlyChanges [.st] s t ∧
      (s.mode = .running → (t.beep = true ↔ s.reg x ≠ 0)))

/-- After k ticks each timer is k lower and never below 0; tick k + 1 beeps exactly while ST exceeds k. beep as the
tick's result is the spec's decision D23 (log entry 13). -/
def Obligations.TimersCountDownToZero : Prop :=
  ∀ (s : State) (k : Nat), s.isFaulted = false →
    (State.tickTimers^[k] s).dt.toNat = s.dt.toNat - k ∧ (State.tickTimers^[k] s).st.toNat = s.st.toNat - k ∧
    ((State.tickTimers^[k] s).beep = true ↔ k < s.st.toNat) ∧ OnlyChanges [.dt, .st] s (State.tickTimers^[k] s)

/-- load copies the bytes to 512 upward and sets PC to 512; 512 + len of 4096 or more latches ProgramTooLarge. The
spec's decisions D20 and D3 (log entries 13, 5). -/
def Obligations.LoadPlacesTheProgram : Prop :=
  ∀ (s : State) (bytes : List Byte), s.isFaulted = false →
    (512 + bytes.length < 4096 →
      (∀ k, k < bytes.length → (s.load bytes).mem.read (512 + k) = bytes.getD k 0) ∧
      (∀ a, a < 512 ∨ 512 + bytes.length ≤ a → (s.load bytes).mem.read a = s.mem.read a) ∧
      (s.load bytes).pc.toNat = 512 ∧ OnlyChanges [.mem, .pc] s (s.load bytes)) ∧
    (4096 ≤ 512 + bytes.length →
      (s.load bytes).mode = .faulted .programTooLarge ∧ OnlyChanges [.mode] s (s.load bytes))

/-- After init and load the first step executes the program's first two bytes, high byte first. -/
def Obligations.BootRunsTheFirstInstruction : Prop :=
  ∀ (s : State) (hi lo : Byte) (rest : List Byte), 512 + (hi :: lo :: rest).length < 4096 →
    step (s.init.load (hi :: lo :: rest)) =
      exec (decodeOp (hi ++ lo)) { s.init.load (hi :: lo :: rest) with pc := 514 }

/-- From every state with the invariant every sequence of host commands answers a next state with the invariant.
Any order and any number of commands is R263. It follows from CommandKeepsInvariant. -/
def Obligations.EveryRunIsSafe : Prop :=
  ∀ (s : State) (cs : List Command), s.Inv → ∃ t, runCommands cs s = .next t ∧ t.Inv

/-- 2nnn with SP at the capacity or above latches StackOverflow with SP one higher modulo 256. The model's own
choice, log entry 2, for states outside the invariant; the latch is the spec's decision D3 (log entry 5). -/
def Obligations.CallAboveCapacityOverflows : Prop :=
  ∀ (nnn : Addr) (s : State), Config.stackCapacity ≤ s.sp.toNat →
    ∃ t, exec (.call nnn) s = .next t ∧ t.mode = .faulted .stackOverflow ∧
      t.sp.toNat = (s.sp.toNat + 1) % 256 ∧ OnlyChanges [.sp, .mode] s t
end

