-- ==== Sys2Proof/Laws/State.lean ====
section
/-! SUPPORT. One lemma per field and accessor for each update of the state, all true by rfl, so that no later proof
unfolds a record update; and reading back what an update wrote. -/

namespace Sys2Proof.Machine

variable (s : State)

/-! ## setReg -/

@[simp] theorem State.setReg_v (r : Reg) (b : Byte) : (s.setReg r b).v = s.v.set r b := rfl
@[simp] theorem State.setReg_i (r : Reg) (b : Byte) : (s.setReg r b).i = s.i := rfl
@[simp] theorem State.setReg_pc (r : Reg) (b : Byte) : (s.setReg r b).pc = s.pc := rfl
@[simp] theorem State.setReg_sp (r : Reg) (b : Byte) : (s.setReg r b).sp = s.sp := rfl
@[simp] theorem State.setReg_dt (r : Reg) (b : Byte) : (s.setReg r b).dt = s.dt := rfl
@[simp] theorem State.setReg_st (r : Reg) (b : Byte) : (s.setReg r b).st = s.st := rfl
@[simp] theorem State.setReg_mode (r : Reg) (b : Byte) : (s.setReg r b).mode = s.mode := rfl
@[simp] theorem State.setReg_mem (r : Reg) (b : Byte) : (s.setReg r b).mem = s.mem := rfl
@[simp] theorem State.setReg_stk (r : Reg) (b : Byte) : (s.setReg r b).stk = s.stk := rfl
@[simp] theorem State.setReg_fb (r : Reg) (b : Byte) : (s.setReg r b).fb = s.fb := rfl
@[simp] theorem State.setReg_key (r : Reg) (b : Byte) : (s.setReg r b).key = s.key := rfl
@[simp] theorem State.setReg_draws (r : Reg) (b : Byte) : (s.setReg r b).draws = s.draws := rfl
@[simp] theorem State.setReg_slot (r : Reg) (b : Byte) (j : Nat) : (s.setReg r b).slot j = s.slot j := rfl
@[simp] theorem State.setReg_keyAt (r : Reg) (b : Byte) (j : Fin 16) : (s.setReg r b).keyAt j = s.keyAt j := rfl

/-! ## setI -/

@[simp] theorem State.setI_v (w : Word) : (s.setI w).v = s.v := rfl
@[simp] theorem State.setI_i (w : Word) : (s.setI w).i = w := rfl
@[simp] theorem State.setI_pc (w : Word) : (s.setI w).pc = s.pc := rfl
@[simp] theorem State.setI_sp (w : Word) : (s.setI w).sp = s.sp := rfl
@[simp] theorem State.setI_dt (w : Word) : (s.setI w).dt = s.dt := rfl
@[simp] theorem State.setI_st (w : Word) : (s.setI w).st = s.st := rfl
@[simp] theorem State.setI_mode (w : Word) : (s.setI w).mode = s.mode := rfl
@[simp] theorem State.setI_mem (w : Word) : (s.setI w).mem = s.mem := rfl
@[simp] theorem State.setI_stk (w : Word) : (s.setI w).stk = s.stk := rfl
@[simp] theorem State.setI_fb (w : Word) : (s.setI w).fb = s.fb := rfl
@[simp] theorem State.setI_key (w : Word) : (s.setI w).key = s.key := rfl
@[simp] theorem State.setI_draws (w : Word) : (s.setI w).draws = s.draws := rfl
@[simp] theorem State.setI_reg (w : Word) (q : Reg) : (s.setI w).reg q = s.reg q := rfl
@[simp] theorem State.setI_slot (w : Word) (j : Nat) : (s.setI w).slot j = s.slot j := rfl
@[simp] theorem State.setI_keyAt (w : Word) (j : Fin 16) : (s.setI w).keyAt j = s.keyAt j := rfl

/-! ## setPc -/

@[simp] theorem State.setPc_v (w : Word) : (s.setPc w).v = s.v := rfl
@[simp] theorem State.setPc_i (w : Word) : (s.setPc w).i = s.i := rfl
@[simp] theorem State.setPc_pc (w : Word) : (s.setPc w).pc = w := rfl
@[simp] theorem State.setPc_sp (w : Word) : (s.setPc w).sp = s.sp := rfl
@[simp] theorem State.setPc_dt (w : Word) : (s.setPc w).dt = s.dt := rfl
@[simp] theorem State.setPc_st (w : Word) : (s.setPc w).st = s.st := rfl
@[simp] theorem State.setPc_mode (w : Word) : (s.setPc w).mode = s.mode := rfl
@[simp] theorem State.setPc_mem (w : Word) : (s.setPc w).mem = s.mem := rfl
@[simp] theorem State.setPc_stk (w : Word) : (s.setPc w).stk = s.stk := rfl
@[simp] theorem State.setPc_fb (w : Word) : (s.setPc w).fb = s.fb := rfl
@[simp] theorem State.setPc_key (w : Word) : (s.setPc w).key = s.key := rfl
@[simp] theorem State.setPc_draws (w : Word) : (s.setPc w).draws = s.draws := rfl
@[simp] theorem State.setPc_reg (w : Word) (q : Reg) : (s.setPc w).reg q = s.reg q := rfl
@[simp] theorem State.setPc_slot (w : Word) (j : Nat) : (s.setPc w).slot j = s.slot j := rfl
@[simp] theorem State.setPc_keyAt (w : Word) (j : Fin 16) : (s.setPc w).keyAt j = s.keyAt j := rfl

/-! ## setSp -/

@[simp] theorem State.setSp_v (b : Byte) : (s.setSp b).v = s.v := rfl
@[simp] theorem State.setSp_i (b : Byte) : (s.setSp b).i = s.i := rfl
@[simp] theorem State.setSp_pc (b : Byte) : (s.setSp b).pc = s.pc := rfl
@[simp] theorem State.setSp_sp (b : Byte) : (s.setSp b).sp = b := rfl
@[simp] theorem State.setSp_dt (b : Byte) : (s.setSp b).dt = s.dt := rfl
@[simp] theorem State.setSp_st (b : Byte) : (s.setSp b).st = s.st := rfl
@[simp] theorem State.setSp_mode (b : Byte) : (s.setSp b).mode = s.mode := rfl
@[simp] theorem State.setSp_mem (b : Byte) : (s.setSp b).mem = s.mem := rfl
@[simp] theorem State.setSp_stk (b : Byte) : (s.setSp b).stk = s.stk := rfl
@[simp] theorem State.setSp_fb (b : Byte) : (s.setSp b).fb = s.fb := rfl
@[simp] theorem State.setSp_key (b : Byte) : (s.setSp b).key = s.key := rfl
@[simp] theorem State.setSp_draws (b : Byte) : (s.setSp b).draws = s.draws := rfl
@[simp] theorem State.setSp_reg (b : Byte) (q : Reg) : (s.setSp b).reg q = s.reg q := rfl
@[simp] theorem State.setSp_slot (b : Byte) (j : Nat) : (s.setSp b).slot j = s.slot j := rfl
@[simp] theorem State.setSp_keyAt (b : Byte) (j : Fin 16) : (s.setSp b).keyAt j = s.keyAt j := rfl

/-! ## setDt -/

@[simp] theorem State.setDt_v (b : Byte) : (s.setDt b).v = s.v := rfl
@[simp] theorem State.setDt_i (b : Byte) : (s.setDt b).i = s.i := rfl
@[simp] theorem State.setDt_pc (b : Byte) : (s.setDt b).pc = s.pc := rfl
@[simp] theorem State.setDt_sp (b : Byte) : (s.setDt b).sp = s.sp := rfl
@[simp] theorem State.setDt_dt (b : Byte) : (s.setDt b).dt = b := rfl
@[simp] theorem State.setDt_st (b : Byte) : (s.setDt b).st = s.st := rfl
@[simp] theorem State.setDt_mode (b : Byte) : (s.setDt b).mode = s.mode := rfl
@[simp] theorem State.setDt_mem (b : Byte) : (s.setDt b).mem = s.mem := rfl
@[simp] theorem State.setDt_stk (b : Byte) : (s.setDt b).stk = s.stk := rfl
@[simp] theorem State.setDt_fb (b : Byte) : (s.setDt b).fb = s.fb := rfl
@[simp] theorem State.setDt_key (b : Byte) : (s.setDt b).key = s.key := rfl
@[simp] theorem State.setDt_draws (b : Byte) : (s.setDt b).draws = s.draws := rfl
@[simp] theorem State.setDt_reg (b : Byte) (q : Reg) : (s.setDt b).reg q = s.reg q := rfl
@[simp] theorem State.setDt_slot (b : Byte) (j : Nat) : (s.setDt b).slot j = s.slot j := rfl
@[simp] theorem State.setDt_keyAt (b : Byte) (j : Fin 16) : (s.setDt b).keyAt j = s.keyAt j := rfl

/-! ## setSt -/

@[simp] theorem State.setSt_v (b : Byte) : (s.setSt b).v = s.v := rfl
@[simp] theorem State.setSt_i (b : Byte) : (s.setSt b).i = s.i := rfl
@[simp] theorem State.setSt_pc (b : Byte) : (s.setSt b).pc = s.pc := rfl
@[simp] theorem State.setSt_sp (b : Byte) : (s.setSt b).sp = s.sp := rfl
@[simp] theorem State.setSt_dt (b : Byte) : (s.setSt b).dt = s.dt := rfl
@[simp] theorem State.setSt_st (b : Byte) : (s.setSt b).st = b := rfl
@[simp] theorem State.setSt_mode (b : Byte) : (s.setSt b).mode = s.mode := rfl
@[simp] theorem State.setSt_mem (b : Byte) : (s.setSt b).mem = s.mem := rfl
@[simp] theorem State.setSt_stk (b : Byte) : (s.setSt b).stk = s.stk := rfl
@[simp] theorem State.setSt_fb (b : Byte) : (s.setSt b).fb = s.fb := rfl
@[simp] theorem State.setSt_key (b : Byte) : (s.setSt b).key = s.key := rfl
@[simp] theorem State.setSt_draws (b : Byte) : (s.setSt b).draws = s.draws := rfl
@[simp] theorem State.setSt_reg (b : Byte) (q : Reg) : (s.setSt b).reg q = s.reg q := rfl
@[simp] theorem State.setSt_slot (b : Byte) (j : Nat) : (s.setSt b).slot j = s.slot j := rfl
@[simp] theorem State.setSt_keyAt (b : Byte) (j : Fin 16) : (s.setSt b).keyAt j = s.keyAt j := rfl

/-! ## setMode -/

@[simp] theorem State.setMode_v (m : Mode) : (s.setMode m).v = s.v := rfl
@[simp] theorem State.setMode_i (m : Mode) : (s.setMode m).i = s.i := rfl
@[simp] theorem State.setMode_pc (m : Mode) : (s.setMode m).pc = s.pc := rfl
@[simp] theorem State.setMode_sp (m : Mode) : (s.setMode m).sp = s.sp := rfl
@[simp] theorem State.setMode_dt (m : Mode) : (s.setMode m).dt = s.dt := rfl
@[simp] theorem State.setMode_st (m : Mode) : (s.setMode m).st = s.st := rfl
@[simp] theorem State.setMode_mode (m : Mode) : (s.setMode m).mode = m := rfl
@[simp] theorem State.setMode_mem (m : Mode) : (s.setMode m).mem = s.mem := rfl
@[simp] theorem State.setMode_stk (m : Mode) : (s.setMode m).stk = s.stk := rfl
@[simp] theorem State.setMode_fb (m : Mode) : (s.setMode m).fb = s.fb := rfl
@[simp] theorem State.setMode_key (m : Mode) : (s.setMode m).key = s.key := rfl
@[simp] theorem State.setMode_draws (m : Mode) : (s.setMode m).draws = s.draws := rfl
@[simp] theorem State.setMode_reg (m : Mode) (q : Reg) : (s.setMode m).reg q = s.reg q := rfl
@[simp] theorem State.setMode_slot (m : Mode) (j : Nat) : (s.setMode m).slot j = s.slot j := rfl
@[simp] theorem State.setMode_keyAt (m : Mode) (j : Fin 16) : (s.setMode m).keyAt j = s.keyAt j := rfl

/-! ## setMem -/

@[simp] theorem State.setMem_v (m : Memory) : (s.setMem m).v = s.v := rfl
@[simp] theorem State.setMem_i (m : Memory) : (s.setMem m).i = s.i := rfl
@[simp] theorem State.setMem_pc (m : Memory) : (s.setMem m).pc = s.pc := rfl
@[simp] theorem State.setMem_sp (m : Memory) : (s.setMem m).sp = s.sp := rfl
@[simp] theorem State.setMem_dt (m : Memory) : (s.setMem m).dt = s.dt := rfl
@[simp] theorem State.setMem_st (m : Memory) : (s.setMem m).st = s.st := rfl
@[simp] theorem State.setMem_mode (m : Memory) : (s.setMem m).mode = s.mode := rfl
@[simp] theorem State.setMem_mem (m : Memory) : (s.setMem m).mem = m := rfl
@[simp] theorem State.setMem_stk (m : Memory) : (s.setMem m).stk = s.stk := rfl
@[simp] theorem State.setMem_fb (m : Memory) : (s.setMem m).fb = s.fb := rfl
@[simp] theorem State.setMem_key (m : Memory) : (s.setMem m).key = s.key := rfl
@[simp] theorem State.setMem_draws (m : Memory) : (s.setMem m).draws = s.draws := rfl
@[simp] theorem State.setMem_reg (m : Memory) (q : Reg) : (s.setMem m).reg q = s.reg q := rfl
@[simp] theorem State.setMem_slot (m : Memory) (j : Nat) : (s.setMem m).slot j = s.slot j := rfl
@[simp] theorem State.setMem_keyAt (m : Memory) (j : Fin 16) : (s.setMem m).keyAt j = s.keyAt j := rfl

/-! ## setSlot -/

@[simp] theorem State.setSlot_v (k : Nat) (w : Word) : (s.setSlot k w).v = s.v := rfl
@[simp] theorem State.setSlot_i (k : Nat) (w : Word) : (s.setSlot k w).i = s.i := rfl
@[simp] theorem State.setSlot_pc (k : Nat) (w : Word) : (s.setSlot k w).pc = s.pc := rfl
@[simp] theorem State.setSlot_sp (k : Nat) (w : Word) : (s.setSlot k w).sp = s.sp := rfl
@[simp] theorem State.setSlot_dt (k : Nat) (w : Word) : (s.setSlot k w).dt = s.dt := rfl
@[simp] theorem State.setSlot_st (k : Nat) (w : Word) : (s.setSlot k w).st = s.st := rfl
@[simp] theorem State.setSlot_mode (k : Nat) (w : Word) : (s.setSlot k w).mode = s.mode := rfl
@[simp] theorem State.setSlot_mem (k : Nat) (w : Word) : (s.setSlot k w).mem = s.mem := rfl
@[simp] theorem State.setSlot_stk (k : Nat) (w : Word) : (s.setSlot k w).stk = s.stk.setIfInBounds k w := rfl
@[simp] theorem State.setSlot_fb (k : Nat) (w : Word) : (s.setSlot k w).fb = s.fb := rfl
@[simp] theorem State.setSlot_key (k : Nat) (w : Word) : (s.setSlot k w).key = s.key := rfl
@[simp] theorem State.setSlot_draws (k : Nat) (w : Word) : (s.setSlot k w).draws = s.draws := rfl
@[simp] theorem State.setSlot_reg (k : Nat) (w : Word) (q : Reg) : (s.setSlot k w).reg q = s.reg q := rfl
@[simp] theorem State.setSlot_keyAt (k : Nat) (w : Word) (j : Fin 16) : (s.setSlot k w).keyAt j = s.keyAt j := rfl

/-! ## setFb -/

@[simp] theorem State.setFb_v (g : Grid) : (s.setFb g).v = s.v := rfl
@[simp] theorem State.setFb_i (g : Grid) : (s.setFb g).i = s.i := rfl
@[simp] theorem State.setFb_pc (g : Grid) : (s.setFb g).pc = s.pc := rfl
@[simp] theorem State.setFb_sp (g : Grid) : (s.setFb g).sp = s.sp := rfl
@[simp] theorem State.setFb_dt (g : Grid) : (s.setFb g).dt = s.dt := rfl
@[simp] theorem State.setFb_st (g : Grid) : (s.setFb g).st = s.st := rfl
@[simp] theorem State.setFb_mode (g : Grid) : (s.setFb g).mode = s.mode := rfl
@[simp] theorem State.setFb_mem (g : Grid) : (s.setFb g).mem = s.mem := rfl
@[simp] theorem State.setFb_stk (g : Grid) : (s.setFb g).stk = s.stk := rfl
@[simp] theorem State.setFb_fb (g : Grid) : (s.setFb g).fb = g := rfl
@[simp] theorem State.setFb_key (g : Grid) : (s.setFb g).key = s.key := rfl
@[simp] theorem State.setFb_draws (g : Grid) : (s.setFb g).draws = s.draws := rfl
@[simp] theorem State.setFb_reg (g : Grid) (q : Reg) : (s.setFb g).reg q = s.reg q := rfl
@[simp] theorem State.setFb_slot (g : Grid) (j : Nat) : (s.setFb g).slot j = s.slot j := rfl
@[simp] theorem State.setFb_keyAt (g : Grid) (j : Fin 16) : (s.setFb g).keyAt j = s.keyAt j := rfl

/-! ## setKey -/

@[simp] theorem State.setKey_v (k : Fin 16) (b : Bool) : (s.setKey k b).v = s.v := rfl
@[simp] theorem State.setKey_i (k : Fin 16) (b : Bool) : (s.setKey k b).i = s.i := rfl
@[simp] theorem State.setKey_pc (k : Fin 16) (b : Bool) : (s.setKey k b).pc = s.pc := rfl
@[simp] theorem State.setKey_sp (k : Fin 16) (b : Bool) : (s.setKey k b).sp = s.sp := rfl
@[simp] theorem State.setKey_dt (k : Fin 16) (b : Bool) : (s.setKey k b).dt = s.dt := rfl
@[simp] theorem State.setKey_st (k : Fin 16) (b : Bool) : (s.setKey k b).st = s.st := rfl
@[simp] theorem State.setKey_mode (k : Fin 16) (b : Bool) : (s.setKey k b).mode = s.mode := rfl
@[simp] theorem State.setKey_mem (k : Fin 16) (b : Bool) : (s.setKey k b).mem = s.mem := rfl
@[simp] theorem State.setKey_stk (k : Fin 16) (b : Bool) : (s.setKey k b).stk = s.stk := rfl
@[simp] theorem State.setKey_fb (k : Fin 16) (b : Bool) : (s.setKey k b).fb = s.fb := rfl
@[simp] theorem State.setKey_key (k : Fin 16) (b : Bool) : (s.setKey k b).key = s.key.set k b := rfl
@[simp] theorem State.setKey_draws (k : Fin 16) (b : Bool) : (s.setKey k b).draws = s.draws := rfl
@[simp] theorem State.setKey_reg (k : Fin 16) (b : Bool) (q : Reg) : (s.setKey k b).reg q = s.reg q := rfl
@[simp] theorem State.setKey_slot (k : Fin 16) (b : Bool) (j : Nat) : (s.setKey k b).slot j = s.slot j := rfl

/-! ## countDraw -/

@[simp] theorem State.countDraw_v : (s.countDraw).v = s.v := rfl
@[simp] theorem State.countDraw_i : (s.countDraw).i = s.i := rfl
@[simp] theorem State.countDraw_pc : (s.countDraw).pc = s.pc := rfl
@[simp] theorem State.countDraw_sp : (s.countDraw).sp = s.sp := rfl
@[simp] theorem State.countDraw_dt : (s.countDraw).dt = s.dt := rfl
@[simp] theorem State.countDraw_st : (s.countDraw).st = s.st := rfl
@[simp] theorem State.countDraw_mode : (s.countDraw).mode = s.mode := rfl
@[simp] theorem State.countDraw_mem : (s.countDraw).mem = s.mem := rfl
@[simp] theorem State.countDraw_stk : (s.countDraw).stk = s.stk := rfl
@[simp] theorem State.countDraw_fb : (s.countDraw).fb = s.fb := rfl
@[simp] theorem State.countDraw_key : (s.countDraw).key = s.key := rfl
@[simp] theorem State.countDraw_draws : (s.countDraw).draws = s.draws + 1 := rfl
@[simp] theorem State.countDraw_reg (q : Reg) : (s.countDraw).reg q = s.reg q := rfl
@[simp] theorem State.countDraw_slot (j : Nat) : (s.countDraw).slot j = s.slot j := rfl
@[simp] theorem State.countDraw_keyAt (j : Fin 16) : (s.countDraw).keyAt j = s.keyAt j := rfl

/-! ## Reading back -/

/-- A register read after a register write. -/
theorem State.reg_setReg (r q : Reg) (b : Byte) : (s.setReg r b).reg q = if q = r then b else s.reg q := by
  simp only [State.reg, State.setReg_v, Fin.getElem_fin, Vector.getElem_set, Fin.ext_iff, eq_comm]

@[simp] theorem State.reg_setReg_same (r : Reg) (b : Byte) : (s.setReg r b).reg r = b := by simp [State.reg_setReg]

theorem State.reg_setReg_other {r q : Reg} (h : q ≠ r) (b : Byte) : (s.setReg r b).reg q = s.reg q := by
  simp [State.reg_setReg, h]

/-- A key read after a key write. -/
theorem State.keyAt_setKey (k j : Fin 16) (b : Bool) : (s.setKey k b).keyAt j = if j = k then b else s.keyAt j := by
  simp only [State.keyAt, State.setKey_key, Fin.getElem_fin, Vector.getElem_set, Fin.ext_iff, eq_comm]

@[simp] theorem State.keyAt_setKey_same (k : Fin 16) (b : Bool) : (s.setKey k b).keyAt k = b := by
  simp [State.keyAt_setKey]

/-- A stack slot read after a slot write, for a slot the field has. -/
theorem State.slot_setSlot {k : Nat} (h : k < Config.maxStackCapacity) (j : Nat) (w : Word) :
    (s.setSlot k w).slot j = if j = k then w else s.slot j := by
  simp only [State.slot, State.setSlot_stk, Vector.getElem?_setIfInBounds, eq_comm (a := k)]
  split <;> simp_all

/-! ## The reset state -/

@[simp] theorem State.reset_reg (r : Reg) : State.reset.reg r = 0 := by simp [State.reg, State.reset]

@[simp] theorem State.reset_slot (k : Nat) : State.reset.slot k = 0 := by
  simp only [State.slot, State.reset, Vector.getElem?_replicate]
  split <;> rfl

@[simp] theorem State.reset_keyAt (k : Fin 16) : State.reset.keyAt k = false := by simp [State.keyAt, State.reset]

/-! ## Derived updates -/

@[simp] theorem State.takeFault_eq (c : FaultCause) : s.takeFault c = s.setMode (.faulted c) := rfl

@[simp] theorem State.advancePc_eq : s.advancePc = s.setPc (s.pc + 2) := rfl

/-- What a skip leaves in `PC` (R131); it changes nothing else (`State.skipIf_eq`). -/
theorem State.skipIf_eq (c : Bool) : s.skipIf c = s.setPc (if c then s.pc + 2 else s.pc) := by
  cases c <;> rfl

end Sys2Proof.Machine
end

