-- ==== Sys2Proof/Laws/Ops.lean ====
section
/-! SUPPORT. What each shared operation can do, said once: memory accesses, register loads, stack, keys, faults. -/

namespace Sys2Proof.Machine

/-! ## Sequencing -/

@[simp] theorem Result.bind_ok {α β : Type} (a : α) (s : State) (k : α → State → Result β) :
    (Result.ok a s).bind k = k a s := rfl

@[simp] theorem Result.bind_raised {α β : Type} (c : FaultCause) (s : State) (k : α → State → Result β) :
    (Result.raised c s).bind k = .raised c s := rfl

@[simp] theorem Result.andThen_ok {α : Type} (a : α) (s : State) (k : α → State → Host.Outcome State Fault Refusal) :
    (Result.ok a s).andThen k = k a s := rfl

@[simp] theorem Result.andThen_raised {α : Type} (c : FaultCause) (s : State)
    (k : α → State → Host.Outcome State Fault Refusal) :
    (Result.raised c s).andThen k = .next (s.setMode (.faulted c)) := rfl

@[simp] theorem Result.andThen_stopped {α : Type} (f : Fault) (k : α → State → Host.Outcome State Fault Refusal) :
    (Result.stopped f).andThen k = .fault f := rfl

/-! ## Parameters -/

/-- R8: `STACK_CAPACITY` is from 12 to 255. -/
theorem stackCapacity_bounds : 12 ≤ Config.stackCapacity ∧ Config.stackCapacity ≤ 255 := by
  simp only [Config.stackCapacity, Config.maxStackCapacity, Config.minStackCapacity]
  omega

@[simp] theorem slotExists_iff (k : Nat) : slotExists k = true ↔ k < Config.stackCapacity := by
  have := stackCapacity_bounds
  simp only [slotExists, Config.minStackCapacity, Bool.or_eq_true, decide_eq_true_eq]
  omega

/-! ## Memory accesses -/

theorem State.memRead_ok (s : State) {a : Nat} (h : a < 4096) : s.memRead a = .ok (s.mem.read a) s := if_pos h

theorem State.memRead_raised (s : State) {a : Nat} (h : 4096 ≤ a) : s.memRead a = .raised .boundsError s :=
  if_neg (Nat.not_lt.mpr h)

theorem State.memRead2_ok (s : State) {a : Nat} (h : a + 1 < 4096) :
    s.memRead2 a = .ok (s.mem.read a ++ s.mem.read (a + 1)) s := if_pos h

theorem State.memRead2_raised (s : State) {a : Nat} (h : 4096 ≤ a + 1) : s.memRead2 a = .raised .boundsError s :=
  if_neg (Nat.not_lt.mpr h)

theorem State.memWrite_ok (s : State) {a : Nat} (h : a < 4096) (b : Byte) :
    s.memWrite a b = .ok () (s.setMem (s.mem.write a b)) := if_pos h

theorem State.memWrite_raised (s : State) {a : Nat} (h : 4096 ≤ a) (b : Byte) :
    s.memWrite a b = .raised .boundsError s := if_neg (Nat.not_lt.mpr h)

/-- A store of several bytes that all fit. -/
theorem State.storeBytes_ok (bs : List Byte) (s : State) (a : Nat) (h : a + bs.length ≤ 4096) :
    s.storeBytes a bs = .ok () (s.setMem (s.mem.writeList a bs)) := by
  induction bs generalizing s a with
  | nil => rfl
  | cons b bs ih =>
    simp only [List.length_cons] at h
    rw [State.storeBytes, s.memWrite_ok (by omega), Result.bind_ok, ih _ _ (by omega)]
    rfl

/-- A store of several bytes that do not all fit: the bytes below 4096 are stored, then the fault (R178). -/
theorem State.storeBytes_raised (bs : List Byte) (s : State) (a : Nat) (hb : bs ≠ []) (h : 4096 < a + bs.length) :
    s.storeBytes a bs = .raised .boundsError (s.setMem (s.mem.writeList a (bs.take (4096 - a)))) := by
  induction bs generalizing s a with
  | nil => exact absurd rfl hb
  | cons b bs ih =>
    rw [State.storeBytes]
    by_cases ha : a < 4096
    · obtain ⟨d, hd⟩ : ∃ d, 4096 - a = d + 1 := ⟨4096 - a - 1, by omega⟩
      simp only [List.length_cons] at h
      rw [s.memWrite_ok ha, Result.bind_ok, ih _ _ (by rintro rfl; simp at h; omega) (by omega), hd,
        List.take_succ_cons, Memory.writeList]
      have : 4096 - (a + 1) = d := by omega
      rw [this]
      rfl
    · rw [s.memWrite_raised (by omega), Result.bind_raised]
      have : 4096 - a = 0 := by omega
      rw [this]
      rfl

/-- The fetch of several bytes: it changes nothing, and faults when the last one is out of range. -/
theorem State.fetchBytes_ok (n : Nat) (s : State) (a : Nat) (h : n = 0 ∨ a + n ≤ 4096) :
    s.fetchBytes a n = .ok ((List.range n).map fun k => s.mem.read (a + k)) s := by
  induction n generalizing a with
  | zero => rfl
  | succ n ih =>
    rw [State.fetchBytes, s.memRead_ok (by omega), Result.bind_ok, ih (a + 1) (by omega), Result.bind_ok,
      List.range_succ_eq_map, List.map_cons, List.map_map]
    congr 3
    funext k
    simp only [Function.comp_apply]
    congr 1
    omega

theorem State.fetchBytes_raised (n : Nat) (s : State) (a : Nat) (h0 : n ≠ 0) (h : 4096 < a + n) :
    s.fetchBytes a n = .raised .boundsError s := by
  induction n generalizing a with
  | zero => exact absurd rfl h0
  | succ n ih =>
    rw [State.fetchBytes]
    by_cases ha : a < 4096
    · rw [s.memRead_ok ha, Result.bind_ok, ih (a + 1) (by omega) (by omega), Result.bind_raised]
    · rw [s.memRead_raised (by omega), Result.bind_raised]

/-! ## Register loads -/

/-- The state after the registers of a list have been loaded from memory, one byte each. -/
def State.loaded (s : State) (a : Nat) : List Reg → State
  | [] => s
  | r :: rs => (s.setReg r (s.mem.read a)).loaded (a + 1) rs

theorem State.loadRegs_ok (rs : List Reg) (s : State) (a : Nat) (h : a + rs.length ≤ 4096) :
    s.loadRegs a rs = .ok () (s.loaded a rs) := by
  induction rs generalizing s a with
  | nil => rfl
  | cons r rs ih =>
    simp only [List.length_cons] at h
    rw [State.loadRegs, s.memRead_ok (by omega), Result.bind_ok, ih _ _ (by omega), State.loaded]

theorem State.loadRegs_raised (rs : List Reg) (s : State) (a : Nat) (hr : rs ≠ []) (h : 4096 < a + rs.length) :
    s.loadRegs a rs = .raised .boundsError (s.loaded a (rs.take (4096 - a))) := by
  induction rs generalizing s a with
  | nil => exact absurd rfl hr
  | cons r rs ih =>
    rw [State.loadRegs]
    by_cases ha : a < 4096
    · obtain ⟨d, hd⟩ : ∃ d, 4096 - a = d + 1 := ⟨4096 - a - 1, by omega⟩
      simp only [List.length_cons] at h
      rw [s.memRead_ok ha, Result.bind_ok, ih _ _ (by rintro rfl; simp at h; omega) (by omega), hd,
        List.take_succ_cons, State.loaded]
      have : 4096 - (a + 1) = d := by omega
      rw [this]
    · rw [s.memRead_raised (by omega), Result.bind_raised]
      have : 4096 - a = 0 := by omega
      rw [this]
      rfl

/-- Loading registers changes registers only. -/
theorem State.loaded_frame (rs : List Reg) (s : State) (a : Nat) :
    s.loaded a rs = { s with v := (s.loaded a rs).v } := by
  induction rs generalizing s a with
  | nil => rfl
  | cons r rs ih => rw [State.loaded, ih]; rfl

theorem State.loaded_reg_other (rs : List Reg) (s : State) (a : Nat) {q : Reg} (h : q ∉ rs) :
    (s.loaded a rs).reg q = s.reg q := by
  induction rs generalizing s a with
  | nil => rfl
  | cons r rs ih =>
    simp only [List.mem_cons, not_or] at h
    rw [State.loaded, ih _ _ h.2, State.reg_setReg_other _ h.1]

/-- Each register of a list without repeats gets its own byte. -/
theorem State.loaded_reg (rs : List Reg) (s : State) (a : Nat) (hn : rs.Nodup) (k : Nat) (hk : k < rs.length) :
    (s.loaded a rs).reg rs[k] = s.mem.read (a + k) := by
  induction rs generalizing s a k with
  | nil => simp at hk
  | cons r rs ih =>
    rw [List.nodup_cons] at hn
    cases k with
    | zero => simp [State.loaded, State.loaded_reg_other _ _ _ hn.1]
    | succ k =>
      rw [State.loaded, List.getElem_cons_succ, ih _ _ hn.2 k (by simpa using hk)]
      simp only [State.setReg_mem]
      congr 1
      omega

/-! ## The register range V0 to Vx -/

@[simp] theorem length_regsUpTo (x : Reg) : (regsUpTo x).length = x.val + 1 := by revert x; decide

theorem nodup_regsUpTo (x : Reg) : (regsUpTo x).Nodup := by revert x; decide

@[simp] theorem mem_regsUpTo (x r : Reg) : r ∈ regsUpTo x ↔ r ≤ x := by revert x r; decide

theorem getElem_regsUpTo (x : Reg) (k : Nat) (h : k < (regsUpTo x).length) :
    (regsUpTo x)[k] = ⟨k, by have := length_regsUpTo x; omega⟩ := by
  have hk : k < 16 := by have := length_regsUpTo x; omega
  have : ∀ x k : Reg, ∀ h : k.val < (regsUpTo x).length, (regsUpTo x)[k.val] = k := by decide
  exact this x ⟨k, hk⟩ h

/-! ## Stack -/

theorem State.push_ok (s : State) (w : Word) (h : s.sp.toNat + 1 < Config.stackCapacity) :
    s.push w = .ok () ((s.setSp (s.sp + 1)).setSlot (s.sp.toNat + 1) w) := by
  simp [State.push, h]

theorem State.push_raised (s : State) (w : Word) (h : Config.stackCapacity ≤ s.sp.toNat + 1) :
    s.push w = .raised .stackOverflow (s.setSp (s.sp + 1)) := by
  have : slotExists (s.sp.toNat + 1) = false := by
    rw [Bool.eq_false_iff, ne_eq, slotExists_iff]; omega
  simp [State.push, this]

theorem State.pop_raised (s : State) (h : s.sp = 0) : s.pop = .raised .stackUnderflow s := by
  simp [State.pop, h]

theorem State.pop_ok (s : State) (h0 : s.sp ≠ 0) (h : s.sp.toNat < Config.stackCapacity) :
    s.pop = .ok (s.slot s.sp.toNat) (s.setSp (s.sp - 1)) := by
  rw [State.pop, if_neg h0, if_pos ((slotExists_iff _).mpr h)]

theorem State.pop_stopped (s : State) (h0 : s.sp ≠ 0) (h : Config.stackCapacity ≤ s.sp.toNat) :
    s.pop = .stopped .stackSlotAbsent := by
  have : slotExists s.sp.toNat = false := by
    rw [Bool.eq_false_iff, ne_eq, slotExists_iff]; omega
  rw [State.pop, if_neg h0, this]
  rfl

/-! ## Keys and random source -/

theorem State.keyRead_ok (s : State) (k : Byte) (h : k.toNat < 16) :
    s.keyRead k = .ok (s.keyAt ⟨k.toNat, h⟩) s := dif_pos h

theorem State.keyRead_raised (s : State) (k : Byte) (h : 16 ≤ k.toNat) :
    s.keyRead k = .raised .boundsError s := dif_neg (by omega)

@[simp] theorem State.drawByte_eq (s : State) : s.drawByte = .ok (Config.randomByte s.draws) s.countDraw := rfl

/-! ## What each operation can do, in one lemma -/

theorem State.storeBytes_cases (s : State) (a : Nat) (bs : List Byte) (hb : bs ≠ []) :
    (a + bs.length ≤ 4096 ∧ s.storeBytes a bs = .ok () (s.setMem (s.mem.writeList a bs))) ∨
    (4096 < a + bs.length ∧
      s.storeBytes a bs = .raised .boundsError (s.setMem (s.mem.writeList a (bs.take (4096 - a))))) := by
  by_cases h : a + bs.length ≤ 4096
  · exact .inl ⟨h, s.storeBytes_ok bs a h⟩
  · exact .inr ⟨by omega, s.storeBytes_raised bs a hb (by omega)⟩

theorem State.fetchBytes_cases (s : State) (a n : Nat) :
    ((n = 0 ∨ a + n ≤ 4096) ∧ s.fetchBytes a n = .ok ((List.range n).map fun k => s.mem.read (a + k)) s) ∨
    (n ≠ 0 ∧ 4096 < a + n ∧ s.fetchBytes a n = .raised .boundsError s) := by
  by_cases h : n = 0 ∨ a + n ≤ 4096
  · exact .inl ⟨h, s.fetchBytes_ok n a h⟩
  · exact .inr ⟨by omega, by omega, s.fetchBytes_raised n a (by omega) (by omega)⟩

theorem State.loadRegs_cases (s : State) (a : Nat) (rs : List Reg) (hr : rs ≠ []) :
    (a + rs.length ≤ 4096 ∧ s.loadRegs a rs = .ok () (s.loaded a rs)) ∨
    (4096 < a + rs.length ∧ s.loadRegs a rs = .raised .boundsError (s.loaded a (rs.take (4096 - a)))) := by
  by_cases h : a + rs.length ≤ 4096
  · exact .inl ⟨h, s.loadRegs_ok rs a h⟩
  · exact .inr ⟨by omega, s.loadRegs_raised rs a hr (by omega)⟩

theorem State.push_cases (s : State) (w : Word) :
    (s.sp.toNat + 1 < Config.stackCapacity ∧
      s.push w = .ok () ((s.setSp (s.sp + 1)).setSlot (s.sp.toNat + 1) w)) ∨
    (Config.stackCapacity ≤ s.sp.toNat + 1 ∧ s.push w = .raised .stackOverflow (s.setSp (s.sp + 1))) := by
  by_cases h : s.sp.toNat + 1 < Config.stackCapacity
  · exact .inl ⟨h, s.push_ok w h⟩
  · exact .inr ⟨by omega, s.push_raised w (by omega)⟩

theorem State.pop_cases (s : State) :
    (s.sp = 0 ∧ s.pop = .raised .stackUnderflow s) ∨
    (s.sp ≠ 0 ∧ s.sp.toNat < Config.stackCapacity ∧ s.pop = .ok (s.slot s.sp.toNat) (s.setSp (s.sp - 1))) ∨
    (s.sp ≠ 0 ∧ Config.stackCapacity ≤ s.sp.toNat ∧ s.pop = .stopped .stackSlotAbsent) := by
  by_cases h : s.sp = 0
  · exact .inl ⟨h, s.pop_raised h⟩
  · by_cases h' : s.sp.toNat < Config.stackCapacity
    · exact .inr (.inl ⟨h, h', s.pop_ok h h'⟩)
    · exact .inr (.inr ⟨h, by omega, s.pop_stopped h (by omega)⟩)

theorem State.keyRead_cases (s : State) (b : Byte) :
    (∃ h : b.toNat < 16, s.keyRead b = .ok (s.keyAt ⟨b.toNat, h⟩) s) ∨
    (16 ≤ b.toNat ∧ s.keyRead b = .raised .boundsError s) := by
  by_cases h : b.toNat < 16
  · exact .inl ⟨h, s.keyRead_ok b h⟩
  · exact .inr ⟨by omega, s.keyRead_raised b (by omega)⟩

theorem regsUpTo_ne_nil (x : Reg) : regsUpTo x ≠ [] := by revert x; decide

theorem bcdDigits_ne_nil (b : Byte) : bcdDigits b ≠ [] := by simp [bcdDigits]

@[simp] theorem length_bcdDigits (b : Byte) : (bcdDigits b).length = 3 := rfl

end Sys2Proof.Machine
end

