-- ==== Sys2Proof/Laws/Frame.lean ====
section
/-! SUPPORT. The frame of each update of the state, and how frames compose. -/

namespace Sys2Proof.Machine

theorem Field.same_refl (f : Field) (s : State) : f.same s s := by cases f <;> simp [Field.same]

theorem Field.same_trans {f : Field} {s t u : State} (h1 : f.same s t) (h2 : f.same t u) : f.same s u := by
  cases f <;> simp_all [Field.same]

theorem OnlyChanges.refl (fs : List Field) (s : State) : OnlyChanges fs s s := fun f _ => f.same_refl s

theorem OnlyChanges.trans {fs : List Field} {s t u : State} (h1 : OnlyChanges fs s t) (h2 : OnlyChanges fs t u) :
    OnlyChanges fs s u := fun f hf => Field.same_trans (h1 f hf) (h2 f hf)

theorem OnlyChanges.mono {fs gs : List Field} {s t : State} (h : OnlyChanges fs s t) (hs : fs ⊆ gs) :
    OnlyChanges gs s t := fun f hf => h f fun hf' => hf (hs hf')

section
variable (s : State)

theorem onlyChanges_setReg (r : Reg) (b : Byte) : OnlyChanges [.v r] s (s.setReg r b) := by
  intro f hf
  cases f <;> simp_all [Field.same, State.reg_setReg]

theorem onlyChanges_setI (w : Word) : OnlyChanges [.i] s (s.setI w) := by
  intro f hf
  cases f <;> simp_all [Field.same]

theorem onlyChanges_setPc (w : Word) : OnlyChanges [.pc] s (s.setPc w) := by
  intro f hf
  cases f <;> simp_all [Field.same]

theorem onlyChanges_setSp (b : Byte) : OnlyChanges [.sp] s (s.setSp b) := by
  intro f hf
  cases f <;> simp_all [Field.same]

theorem onlyChanges_setDt (b : Byte) : OnlyChanges [.dt] s (s.setDt b) := by
  intro f hf
  cases f <;> simp_all [Field.same]

theorem onlyChanges_setSt (b : Byte) : OnlyChanges [.st] s (s.setSt b) := by
  intro f hf
  cases f <;> simp_all [Field.same]

theorem onlyChanges_setMode (m : Mode) : OnlyChanges [.mode] s (s.setMode m) := by
  intro f hf
  cases f <;> simp_all [Field.same]

theorem onlyChanges_setMem (m : Memory) : OnlyChanges [.mem] s (s.setMem m) := by
  intro f hf
  cases f <;> simp_all [Field.same]

theorem onlyChanges_setSlot (k : Nat) (w : Word) : OnlyChanges [.stk] s (s.setSlot k w) := by
  intro f hf
  cases f <;> simp_all [Field.same]

theorem onlyChanges_setFb (g : Grid) : OnlyChanges [.fb] s (s.setFb g) := by
  intro f hf
  cases f <;> simp_all [Field.same]

theorem onlyChanges_setKey (k : Fin 16) (b : Bool) : OnlyChanges [.key] s (s.setKey k b) := by
  intro f hf
  cases f <;> simp_all [Field.same]

theorem onlyChanges_countDraw : OnlyChanges [.draws] s s.countDraw := by
  intro f hf
  cases f <;> simp_all [Field.same]

theorem onlyChanges_skipIf (c : Bool) : OnlyChanges [.pc] s (s.skipIf c) := by
  rw [State.skipIf_eq]
  exact onlyChanges_setPc s _

theorem onlyChanges_loaded (a : Nat) (rs : List Reg) : OnlyChanges (rs.map .v) s (s.loaded a rs) := by
  intro f hf
  cases f with
  | v r => exact State.loaded_reg_other rs s a (by simpa using hf)
  | i | pc | sp | stk | dt | st | mem | fb | key | mode | draws =>
    rw [State.loaded_frame rs s a]
    simp [Field.same]

end

end Sys2Proof.Machine
end

