-- ==== Sys2Proof/Laws/Step.lean ====
section
/-! SUPPORT. What a step can do, said once. -/

namespace Sys2Proof.Machine

/-- A step that answers a next state: nothing outside `Running`, the fetch fault, or the execution of the instruction
at `PC` (R100 to R103). -/
theorem step_cases {s t : State} (h : step s = .next t) :
    (s.mode ≠ .running ∧ t = s) ∨
    (s.mode = .running ∧ 4096 ≤ s.pc.toNat + 1 ∧ t = s.setMode (.faulted .boundsError)) ∨
    (s.mode = .running ∧ s.pc.toNat + 1 < 4096 ∧
      exec (decodeOp (s.mem.read s.pc.toNat ++ s.mem.read (s.pc.toNat + 1))) (s.setPc (s.pc + 2)) = .next t) := by
  unfold step at h
  cases hm : s.mode with
  | awaitingKey r => simp_all
  | faulted c => simp_all
  | running =>
    simp only [hm] at h
    by_cases hp : s.pc.toNat + 1 < 4096
    · rw [s.memRead2_ok hp, Result.andThen_ok] at h
      exact .inr (.inr ⟨rfl, hp, h⟩)
    · rw [s.memRead2_raised (by omega), Result.andThen_raised] at h
      exact .inr (.inl ⟨rfl, by omega, by simpa using h.symm⟩)

/-- A step in `Running` whose two bytes are in memory (R103). -/
theorem step_running (s : State) (hm : s.mode = .running) (hp : s.pc.toNat + 1 < 4096) :
    step s = exec (decodeOp (s.mem.read s.pc.toNat ++ s.mem.read (s.pc.toNat + 1))) (s.setPc (s.pc + 2)) := by
  simp only [step, hm, s.memRead2_ok hp]
  rfl

/-- A step in `Running` whose fetch is out of range (R102). -/
theorem step_fetch_fault (s : State) (hm : s.mode = .running) (hp : 4096 ≤ s.pc.toNat + 1) :
    step s = .next (s.setMode (.faulted .boundsError)) := by
  simp only [step, hm, s.memRead2_raised hp]
  rfl

/-- A step outside `Running` (R101). -/
theorem step_idle (s : State) (hm : s.mode ≠ .running) : step s = .next s := by
  unfold step
  cases h : s.mode <;> simp_all

/-- The addresses of the bytes a store or a load touches start at `I`. -/
@[simp] theorem State.base_eq (s : State) : s.base = s.i.toNat := rfl

/-! ## Widening -/

@[simp] theorem toNat_zextAddr (nnn : Addr) : (zextAddr nnn).toNat = nnn.toNat := by
  rw [zextAddr, BitVec.toNat_setWidth]; omega

@[simp] theorem toNat_zextByte (b : Byte) : (zextByte b).toNat = b.toNat := by
  rw [zextByte, BitVec.toNat_setWidth]; omega

end Sys2Proof.Machine
end

