-- ==== Sys2Proof/Laws/Agree.lean ====
section
/-! SUPPORT. Two states that agree on a set of fields still agree on it after the same update of both. -/

namespace Sys2Proof.Machine

section
variable {s s' : State} {A : Field → Prop} (h : ∀ f, A f → f.same s s')
include h

theorem agree_setReg (r : Reg) (b : Byte) : ∀ f, A f → f.same (s.setReg r b) (s'.setReg r b) := by
  intro f hf
  have := h f hf
  cases f <;> simp_all [Field.same, State.reg_setReg]

theorem agree_setI (w : Word) : ∀ f, A f → f.same (s.setI w) (s'.setI w) := by
  intro f hf
  have := h f hf
  cases f <;> simp_all [Field.same]

theorem agree_setPc (w : Word) : ∀ f, A f → f.same (s.setPc w) (s'.setPc w) := by
  intro f hf
  have := h f hf
  cases f <;> simp_all [Field.same]

theorem agree_setSp (b : Byte) : ∀ f, A f → f.same (s.setSp b) (s'.setSp b) := by
  intro f hf
  have := h f hf
  cases f <;> simp_all [Field.same]

theorem agree_setDt (b : Byte) : ∀ f, A f → f.same (s.setDt b) (s'.setDt b) := by
  intro f hf
  have := h f hf
  cases f <;> simp_all [Field.same]

theorem agree_setSt (b : Byte) : ∀ f, A f → f.same (s.setSt b) (s'.setSt b) := by
  intro f hf
  have := h f hf
  cases f <;> simp_all [Field.same]

theorem agree_setMode (m : Mode) : ∀ f, A f → f.same (s.setMode m) (s'.setMode m) := by
  intro f hf
  have := h f hf
  cases f <;> simp_all [Field.same]

theorem agree_setFb (g : Grid) : ∀ f, A f → f.same (s.setFb g) (s'.setFb g) := by
  intro f hf
  have := h f hf
  cases f <;> simp_all [Field.same]

theorem agree_setSlot (k : Nat) (w : Word) : ∀ f, A f → f.same (s.setSlot k w) (s'.setSlot k w) := by
  intro f hf
  have := h f hf
  cases f <;> simp_all [Field.same]

theorem agree_countDraw : ∀ f, A f → f.same (s.countDraw) (s'.countDraw) := by
  intro f hf
  have := h f hf
  cases f <;> simp_all [Field.same]

theorem agree_skipIf (c : Bool) : ∀ f, A f → f.same (s.skipIf c) (s'.skipIf c) := by
  intro f hf
  have := h f hf
  rw [State.skipIf_eq, State.skipIf_eq]
  cases f <;> simp_all [Field.same]

theorem agree_writeList (a : Nat) (bs : List Byte) :
    ∀ f, A f → f.same (s.setMem (s.mem.writeList a bs)) (s'.setMem (s'.mem.writeList a bs)) := by
  intro f hf
  have := h f hf
  cases f <;> simp_all [Field.same, Memory.read_writeList]

end

theorem agree_loaded {s s' : State} {A : Field → Prop} (hm : Field.mem.same s s') (a : Nat) (rs : List Reg)
    (h : ∀ f, A f → f.same s s') : ∀ f, A f → f.same (s.loaded a rs) (s'.loaded a rs) := by
  induction rs generalizing s s' a with
  | nil => exact h
  | cons r rs ih =>
    have e : s'.mem.read a = s.mem.read a := hm a
    simp only [State.loaded, e]
    exact ih (by simpa [Field.same] using hm) _ (agree_setReg h _ _)

end Sys2Proof.Machine
end

