-- ==== Sys2Proof/Laws/Display.lean ====
section
/-! SUPPORT. The pixel grid: reading a pixel after a clear and after a flip (R190, R192, R193). -/

namespace Sys2Proof.Machine

@[simp] theorem Grid.isSet_clear (x y : Nat) : Grid.clear.isSet x y = false := by
  simp [Grid.isSet, Grid.clear]

/-- R192: a coordinate and its residue name the same pixel. -/
theorem Grid.isSet_mod (g : Grid) (x y : Nat) : g.isSet (x % 64) (y % 32) = g.isSet x y := by
  simp [Grid.isSet]

/-- A flip changes the one pixel it names and no other. -/
theorem Grid.isSet_flip (g : Grid) (x y x' y' : Nat) :
    (g.flip x y).isSet x' y' = (g.isSet x' y' ^^ decide (x' % 64 = x % 64 ∧ y' % 32 = y % 32)) := by
  by_cases hy : y' % 32 = y % 32
  · by_cases hx : x' % 64 = x % 64
    · simp [Grid.isSet, Grid.flip, hx, hy]
    · simp [Grid.isSet, Grid.flip, hx, hy, Ne.symm hx]
  · simp [Grid.isSet, Grid.flip, hy, Ne.symm hy]

/-- Two grids with the same pixels are the same grid. -/
theorem Grid.ext_isSet (g h : Grid) (e : ∀ x y, x < 64 → y < 32 → g.isSet x y = h.isSet x y) : g = h := by
  apply Vector.ext
  intro y hy
  apply Vector.ext
  intro x hx
  have := e x y hx hy
  simpa [Grid.isSet, Nat.mod_eq_of_lt hx, Nat.mod_eq_of_lt hy] using this

/-- What one bit of a sprite row does (R193). -/
theorem drawBit_of_set {x y : Nat} {row : Byte} {b : Nat} (acc : Grid × Bool) (h : row.getLsbD (7 - b) = true) :
    drawBit x y row b acc = (acc.1.flip (x + b) y, acc.2 || acc.1.isSet (x + b) y) := by
  rw [drawBit, h, if_pos rfl]

theorem drawBit_of_clear {x y : Nat} {row : Byte} {b : Nat} (acc : Grid × Bool) (h : row.getLsbD (7 - b) = false) :
    drawBit x y row b acc = acc := by
  rw [drawBit, h]
  rfl

end Sys2Proof.Machine
end

