-- ==== Sys2Proof/Laws/Encoding.lean ====
section
/-! SUPPORT. The fields of the encoding formats (R81, R82): each field of a format is what was put there. -/

namespace Sys2Proof

/-- A concatenation as a number. -/
theorem toNat_append_eq {n m : Nat} (a : BitVec n) (b : BitVec m) : (a ++ b).toNat = a.toNat * 2 ^ m + b.toNat := by
  rw [BitVec.toNat_append, ← Nat.shiftLeft_add_eq_or_of_lt b.isLt, Nat.shiftLeft_eq]

theorem toNat_opNNN (i : BitVec 4) (nnn : Addr) : (opNNN i nnn).toNat = i.toNat * 4096 + nnn.toNat :=
  toNat_append_eq i nnn

theorem toNat_opXKK (i : BitVec 4) (x : Reg) (kk : Byte) :
    (opXKK i x kk).toNat = i.toNat * 4096 + x.val * 256 + kk.toNat := by
  have h : (opXKK i x kk).toNat = (i.toNat * 2 ^ 4 + x.val) * 2 ^ 8 + kk.toNat := by
    simp only [opXKK]
    rw [toNat_append_eq, toNat_append_eq]
    rfl
  rw [h]
  ring

theorem toNat_opXYN (i : BitVec 4) (x y : Reg) (n : Fin 16) :
    (opXYN i x y n).toNat = i.toNat * 4096 + x.val * 256 + y.val * 16 + n.val := by
  have h : (opXYN i x y n).toNat = ((i.toNat * 2 ^ 4 + x.val) * 2 ^ 4 + y.val) * 2 ^ 4 + n.val := by
    simp only [opXYN]
    rw [toNat_append_eq, toNat_append_eq, toNat_append_eq]
    rfl
  omega

/-! ## The fields of an opcode as numbers -/

theorem val_fieldI (op : Word) : (fieldI op).val = op.toNat / 4096 := by
  show (op.extractLsb' 12 4).toNat = _
  rw [BitVec.extractLsb'_toNat, Nat.shiftRight_eq_div_pow]
  omega

theorem val_fieldX (op : Word) : (fieldX op).val = op.toNat / 256 % 16 := by
  show (op.extractLsb' 8 4).toNat = _
  rw [BitVec.extractLsb'_toNat, Nat.shiftRight_eq_div_pow]

theorem val_fieldY (op : Word) : (fieldY op).val = op.toNat / 16 % 16 := by
  show (op.extractLsb' 4 4).toNat = _
  rw [BitVec.extractLsb'_toNat, Nat.shiftRight_eq_div_pow]

theorem val_fieldN (op : Word) : (fieldN op).val = op.toNat % 16 := by
  show (op.extractLsb' 0 4).toNat = _
  rw [BitVec.extractLsb'_toNat, Nat.shiftRight_zero]

theorem toNat_fieldKK (op : Word) : (fieldKK op).toNat = op.toNat % 256 := by
  rw [fieldKK, BitVec.extractLsb'_toNat, Nat.shiftRight_zero]

theorem toNat_fieldNNN (op : Word) : (fieldNNN op).toNat = op.toNat % 4096 := by
  rw [fieldNNN, BitVec.extractLsb'_toNat, Nat.shiftRight_zero]

/-! ## Format NNN -/

section
variable (i : BitVec 4) (nnn : Addr)

@[simp] theorem fieldI_opNNN : fieldI (opNNN i nnn) = i.toFin := by
  apply Fin.ext; rw [val_fieldI, toNat_opNNN]; show _ = i.toNat; omega

@[simp] theorem fieldNNN_opNNN : fieldNNN (opNNN i nnn) = nnn := by
  apply BitVec.eq_of_toNat_eq; rw [toNat_fieldNNN, toNat_opNNN]; omega

end

/-! ## Formats XKK and X -/

section
variable (i : BitVec 4) (x : Reg) (kk : Byte)

@[simp] theorem fieldI_opXKK : fieldI (opXKK i x kk) = i.toFin := by
  apply Fin.ext; rw [val_fieldI, toNat_opXKK]; show _ = i.toNat; omega

@[simp] theorem fieldX_opXKK : fieldX (opXKK i x kk) = x := by
  apply Fin.ext; rw [val_fieldX, toNat_opXKK]; omega

@[simp] theorem fieldKK_opXKK : fieldKK (opXKK i x kk) = kk := by
  apply BitVec.eq_of_toNat_eq; rw [toNat_fieldKK, toNat_opXKK]; omega

end

/-! ## Formats XYN and XY -/

section
variable (i : BitVec 4) (x y : Reg) (n : Fin 16)

@[simp] theorem fieldI_opXYN : fieldI (opXYN i x y n) = i.toFin := by
  apply Fin.ext; rw [val_fieldI, toNat_opXYN]; show _ = i.toNat; omega

@[simp] theorem fieldX_opXYN : fieldX (opXYN i x y n) = x := by
  apply Fin.ext; rw [val_fieldX, toNat_opXYN]; omega

@[simp] theorem fieldY_opXYN : fieldY (opXYN i x y n) = y := by
  apply Fin.ext; rw [val_fieldY, toNat_opXYN]; omega

@[simp] theorem fieldN_opXYN : fieldN (opXYN i x y n) = n := by
  apply Fin.ext; rw [val_fieldN, toNat_opXYN]; omega

end

/-! ## An opcode is its fields -/

theorem opNNN_fields (op : Word) (i : BitVec 4) (h : fieldI op = i.toFin) : opNNN i (fieldNNN op) = op := by
  have h' : op.toNat / 4096 = i.toNat := by rw [← val_fieldI, h]; rfl
  apply BitVec.eq_of_toNat_eq
  rw [toNat_opNNN, toNat_fieldNNN]
  omega

theorem opXKK_fields (op : Word) (i : BitVec 4) (h : fieldI op = i.toFin) :
    opXKK i (fieldX op) (fieldKK op) = op := by
  have h' : op.toNat / 4096 = i.toNat := by rw [← val_fieldI, h]; rfl
  apply BitVec.eq_of_toNat_eq
  rw [toNat_opXKK, val_fieldX, toNat_fieldKK]
  omega

theorem opXYN_fields (op : Word) (i : BitVec 4) (h : fieldI op = i.toFin) :
    opXYN i (fieldX op) (fieldY op) (fieldN op) = op := by
  have h' : op.toNat / 4096 = i.toNat := by rw [← val_fieldI, h]; rfl
  apply BitVec.eq_of_toNat_eq
  rw [toNat_opXYN, val_fieldX, val_fieldY, val_fieldN]
  omega

/-- The two bytes an opcode is stored as give it back (R54). -/
theorem opBytes_append (op : Word) : op.extractLsb' 8 8 ++ op.extractLsb' 0 8 = op := by
  apply BitVec.eq_of_toNat_eq
  rw [toNat_append_eq, BitVec.extractLsb'_toNat, BitVec.extractLsb'_toNat, Nat.shiftRight_eq_div_pow,
    Nat.shiftRight_zero]
  omega

/-! ## The masks of the opcode map (R84, R86) in terms of the fields -/

theorem and_F000 (op : Word) : op &&& 0xF000 = opNNN (BitVec.ofFin (w := 4) (fieldI op)) 0 := by
  apply BitVec.eq_of_getLsbD_eq
  intro k hk
  simp only [opNNN, fieldI, BitVec.getLsbD_and, BitVec.getLsbD_append, BitVec.ofFin_toFin, BitVec.getLsbD_extractLsb']
  interval_cases k <;> simp

theorem and_F00F (op : Word) : op &&& 0xF00F = opXYN (BitVec.ofFin (w := 4) (fieldI op)) 0 0 (fieldN op) := by
  apply BitVec.eq_of_getLsbD_eq
  intro k hk
  simp only [opXYN, fieldI, fieldN, BitVec.getLsbD_and, BitVec.getLsbD_append, BitVec.ofFin_toFin,
    BitVec.getLsbD_extractLsb']
  interval_cases k <;> simp

theorem and_F0FF (op : Word) : op &&& 0xF0FF = opXKK (BitVec.ofFin (w := 4) (fieldI op)) 0 (fieldKK op) := by
  apply BitVec.eq_of_getLsbD_eq
  intro k hk
  simp only [opXKK, fieldI, fieldKK, BitVec.getLsbD_and, BitVec.getLsbD_append, BitVec.ofFin_toFin,
    BitVec.getLsbD_extractLsb']
  interval_cases k <;> simp

theorem and_FFFF (op : Word) : op &&& 0xFFFF = op := by
  have h : (0xFFFF : Word) = BitVec.allOnes 16 := by decide
  rw [h, BitVec.and_allOnes]

/-- A row that fixes the primary opcode alone. -/
theorem accepts_F000 (op v : Word) (a : Fin 16) (hv : v = opNNN (BitVec.ofFin (w := 4) a) 0) :
    op &&& 0xF000 = v ↔ fieldI op = a := by
  rw [and_F000, hv]
  exact ⟨fun h => by simpa using congrArg fieldI h, fun h => by rw [h]⟩

/-- A row that fixes the primary opcode and `n`. -/
theorem accepts_F00F (op v : Word) (a b : Fin 16) (hv : v = opXYN (BitVec.ofFin (w := 4) a) 0 0 b) :
    op &&& 0xF00F = v ↔ fieldI op = a ∧ fieldN op = b := by
  rw [and_F00F, hv]
  exact ⟨fun h => ⟨by simpa using congrArg fieldI h, by simpa using congrArg fieldN h⟩, fun ⟨h, h'⟩ => by rw [h, h']⟩

/-- A row that fixes the primary opcode and `kk`. -/
theorem accepts_F0FF (op v : Word) (a : Fin 16) (b : Byte) (hv : v = opXKK (BitVec.ofFin (w := 4) a) 0 b) :
    op &&& 0xF0FF = v ↔ fieldI op = a ∧ fieldKK op = b := by
  rw [and_F0FF, hv]
  exact ⟨fun h => ⟨by simpa using congrArg fieldI h, by simpa using congrArg fieldKK h⟩, fun ⟨h, h'⟩ => by rw [h, h']⟩

end Sys2Proof
end

