-- ==== Sys2Proof/Laws/Flags.lean ====
section
/-! SUPPORT. The flag byte as a number, and what writing a flag and then a result leaves (R22, R146). -/

namespace Sys2Proof.Machine

@[simp] theorem toNat_flagByte (c : Bool) : (flagByte c).toNat = if c then 1 else 0 := by cases c <;> rfl

theorem toNat_carryFlag (a b : Byte) : (carryFlag a b).toNat = if a.toNat + b.toNat > 255 then 1 else 0 := by
  simp [carryFlag]

theorem toNat_greaterFlag (a b : Byte) : (greaterFlag a b).toNat = if a.toNat > b.toNat then 1 else 0 := by
  simp [greaterFlag]

/-- R146: the result is in `V[x]`. -/
@[simp] theorem State.reg_setFlagThenReg_result (s : State) (x : Reg) (f b : Byte) :
    (s.setFlagThenReg x f b).reg x = b := by
  simp [State.setFlagThenReg]

/-- R146: the flag is in VF unless `x` is VF. -/
theorem State.reg_setFlagThenReg_flag (s : State) {x : Reg} (h : x ≠ vf) (f b : Byte) :
    (s.setFlagThenReg x f b).reg vf = f := by
  simp [State.setFlagThenReg, State.reg_setReg, Ne.symm h]

theorem onlyChanges_setFlagThenReg (s : State) (x : Reg) (f b : Byte) :
    OnlyChanges [.v x, .v vf] s (s.setFlagThenReg x f b) :=
  ((onlyChanges_setReg s vf f).mono (by simp)).trans ((onlyChanges_setReg _ x b).mono (by simp))

end Sys2Proof.Machine
end

