-- ==== Sys2Proof/Laws/PerInstr.lean ====
section
/-! SUPPORT. Facts stated for every instruction, one lemma per constructor. Family `RowFits`: the opcode of a well-formed
instruction is accepted by the row of R86's table the instruction comes from (R84); no row has the no-op's number. -/

namespace Sys2Proof.Laws.RowFits

/-- R84, R86: the instruction's own row of the map accepts its opcode. -/
def Statement (i : Instr) : Prop :=
  i.wellFormed = true → ∀ r ∈ opcodeMap, r.num = i.rowNumber → r.accepts (encode i) = true

/-- A row is found by its number, and its test is on the opcode. -/
theorem of_row {i : Instr} (r : Row) (hr : ∀ q ∈ opcodeMap, q.num = r.num → q = r) (hn : i.rowNumber = r.num)
    (h : encode i &&& r.mask = r.value) : Statement i := by
  intro _ q hq hqn
  rw [hr q hq (hqn.trans hn), Row.accepts, h, beq_self_eq_true]

theorem cls : Statement (.cls) :=
  of_row ⟨1, 0xFFFF, 0x00E0⟩ (by decide) rfl (by decide)

theorem ret : Statement (.ret) :=
  of_row ⟨2, 0xFFFF, 0x00EE⟩ (by decide) rfl (by decide)

theorem jp (nnn : Addr) : Statement (.jp nnn) :=
  of_row ⟨3, 0xF000, 0x1000⟩ (by decide) rfl ((and_F000 _).trans (by rw [encode]; simp; decide))

theorem call (nnn : Addr) : Statement (.call nnn) :=
  of_row ⟨4, 0xF000, 0x2000⟩ (by decide) rfl ((and_F000 _).trans (by rw [encode]; simp; decide))

theorem seVxKk (x : Reg) (kk : Byte) : Statement (.seVxKk x kk) :=
  of_row ⟨5, 0xF000, 0x3000⟩ (by decide) rfl ((and_F000 _).trans (by rw [encode]; simp; decide))

theorem sneVxKk (x : Reg) (kk : Byte) : Statement (.sneVxKk x kk) :=
  of_row ⟨6, 0xF000, 0x4000⟩ (by decide) rfl ((and_F000 _).trans (by rw [encode]; simp; decide))

theorem seVxVy (x : Reg) (y : Reg) : Statement (.seVxVy x y) :=
  of_row ⟨7, 0xF00F, 0x5000⟩ (by decide) rfl ((and_F00F _).trans (by rw [encode]; simp; decide))

theorem ldVxKk (x : Reg) (kk : Byte) : Statement (.ldVxKk x kk) :=
  of_row ⟨8, 0xF000, 0x6000⟩ (by decide) rfl ((and_F000 _).trans (by rw [encode]; simp; decide))

theorem addVxKk (x : Reg) (kk : Byte) : Statement (.addVxKk x kk) :=
  of_row ⟨9, 0xF000, 0x7000⟩ (by decide) rfl ((and_F000 _).trans (by rw [encode]; simp; decide))

theorem ldVxVy (x : Reg) (y : Reg) : Statement (.ldVxVy x y) :=
  of_row ⟨10, 0xF00F, 0x8000⟩ (by decide) rfl ((and_F00F _).trans (by rw [encode]; simp; decide))

theorem orVxVy (x : Reg) (y : Reg) : Statement (.orVxVy x y) :=
  of_row ⟨11, 0xF00F, 0x8001⟩ (by decide) rfl ((and_F00F _).trans (by rw [encode]; simp; decide))

theorem andVxVy (x : Reg) (y : Reg) : Statement (.andVxVy x y) :=
  of_row ⟨12, 0xF00F, 0x8002⟩ (by decide) rfl ((and_F00F _).trans (by rw [encode]; simp; decide))

theorem xorVxVy (x : Reg) (y : Reg) : Statement (.xorVxVy x y) :=
  of_row ⟨13, 0xF00F, 0x8003⟩ (by decide) rfl ((and_F00F _).trans (by rw [encode]; simp; decide))

theorem addVxVy (x : Reg) (y : Reg) : Statement (.addVxVy x y) :=
  of_row ⟨14, 0xF00F, 0x8004⟩ (by decide) rfl ((and_F00F _).trans (by rw [encode]; simp; decide))

theorem subVxVy (x : Reg) (y : Reg) : Statement (.subVxVy x y) :=
  of_row ⟨15, 0xF00F, 0x8005⟩ (by decide) rfl ((and_F00F _).trans (by rw [encode]; simp; decide))

theorem shrVx (x : Reg) (y : Reg) : Statement (.shrVx x y) :=
  of_row ⟨16, 0xF00F, 0x8006⟩ (by decide) rfl ((and_F00F _).trans (by rw [encode]; simp; decide))

theorem subnVxVy (x : Reg) (y : Reg) : Statement (.subnVxVy x y) :=
  of_row ⟨17, 0xF00F, 0x8007⟩ (by decide) rfl ((and_F00F _).trans (by rw [encode]; simp; decide))

theorem shlVx (x : Reg) (y : Reg) : Statement (.shlVx x y) :=
  of_row ⟨18, 0xF00F, 0x800E⟩ (by decide) rfl ((and_F00F _).trans (by rw [encode]; simp; decide))

theorem sneVxVy (x : Reg) (y : Reg) : Statement (.sneVxVy x y) :=
  of_row ⟨19, 0xF00F, 0x9000⟩ (by decide) rfl ((and_F00F _).trans (by rw [encode]; simp; decide))

theorem ldINnn (nnn : Addr) : Statement (.ldINnn nnn) :=
  of_row ⟨20, 0xF000, 0xA000⟩ (by decide) rfl ((and_F000 _).trans (by rw [encode]; simp; decide))

theorem jpV0Nnn (nnn : Addr) : Statement (.jpV0Nnn nnn) :=
  of_row ⟨21, 0xF000, 0xB000⟩ (by decide) rfl ((and_F000 _).trans (by rw [encode]; simp; decide))

theorem rndVxKk (x : Reg) (kk : Byte) : Statement (.rndVxKk x kk) :=
  of_row ⟨22, 0xF000, 0xC000⟩ (by decide) rfl ((and_F000 _).trans (by rw [encode]; simp; decide))

theorem drw (x : Reg) (y : Reg) (n : Fin 16) : Statement (.drw x y n) :=
  of_row ⟨23, 0xF000, 0xD000⟩ (by decide) rfl ((and_F000 _).trans (by rw [encode]; simp; decide))

theorem skpVx (x : Reg) : Statement (.skpVx x) :=
  of_row ⟨24, 0xF0FF, 0xE09E⟩ (by decide) rfl ((and_F0FF _).trans (by rw [encode]; simp; decide))

theorem sknpVx (x : Reg) : Statement (.sknpVx x) :=
  of_row ⟨25, 0xF0FF, 0xE0A1⟩ (by decide) rfl ((and_F0FF _).trans (by rw [encode]; simp; decide))

theorem ldVxDt (x : Reg) : Statement (.ldVxDt x) :=
  of_row ⟨26, 0xF0FF, 0xF007⟩ (by decide) rfl ((and_F0FF _).trans (by rw [encode]; simp; decide))

theorem ldVxK (x : Reg) : Statement (.ldVxK x) :=
  of_row ⟨27, 0xF0FF, 0xF00A⟩ (by decide) rfl ((and_F0FF _).trans (by rw [encode]; simp; decide))

theorem ldDtVx (x : Reg) : Statement (.ldDtVx x) :=
  of_row ⟨28, 0xF0FF, 0xF015⟩ (by decide) rfl ((and_F0FF _).trans (by rw [encode]; simp; decide))

theorem ldStVx (x : Reg) : Statement (.ldStVx x) :=
  of_row ⟨29, 0xF0FF, 0xF018⟩ (by decide) rfl ((and_F0FF _).trans (by rw [encode]; simp; decide))

theorem addIVx (x : Reg) : Statement (.addIVx x) :=
  of_row ⟨30, 0xF0FF, 0xF01E⟩ (by decide) rfl ((and_F0FF _).trans (by rw [encode]; simp; decide))

theorem ldFVx (x : Reg) : Statement (.ldFVx x) :=
  of_row ⟨31, 0xF0FF, 0xF029⟩ (by decide) rfl ((and_F0FF _).trans (by rw [encode]; simp; decide))

theorem ldBVx (x : Reg) : Statement (.ldBVx x) :=
  of_row ⟨32, 0xF0FF, 0xF033⟩ (by decide) rfl ((and_F0FF _).trans (by rw [encode]; simp; decide))

theorem ldMemVx (x : Reg) : Statement (.ldMemVx x) :=
  of_row ⟨33, 0xF0FF, 0xF055⟩ (by decide) rfl ((and_F0FF _).trans (by rw [encode]; simp; decide))

theorem ldVxMem (x : Reg) : Statement (.ldVxMem x) :=
  of_row ⟨34, 0xF0FF, 0xF065⟩ (by decide) rfl ((and_F0FF _).trans (by rw [encode]; simp; decide))

theorem unmatched (op : Word) : Statement (.unmatched op) := by
  intro _ r hr hn
  have : ∀ r ∈ opcodeMap, r.num ≠ 35 := by decide
  exact absurd hn (this r hr)

end Sys2Proof.Laws.RowFits
end

