-- ==== Sys2Proof/Laws/Sprite.lean ====
section
/-! SUPPORT. The blitter's loops (44_display.md rule R193) as flips of a list of pixels, none of them twice. -/

namespace Sys2Proof.Machine

/-- The 1 bits of a sprite whose top row is at row `y`, in the order of the loops: (bit position, row). -/
def visits (y : Nat) : List Byte → List (Nat × Nat)
  | [] => []
  | row :: rows => (([0, 1, 2, 3, 4, 5, 6, 7].filter fun b => row.getLsbD (7 - b)).map fun b => (b, y)) ++ visits (y + 1) rows

/-- Flip the pixels of a list in turn, each tested before its flip. -/
def flipAll (x : Nat) (ps : List (Nat × Nat)) (acc : Grid × Bool) : Grid × Bool :=
  ps.foldl (fun acc p => (acc.1.flip (x + p.1) p.2, acc.2 || acc.1.isSet (x + p.1) p.2)) acc

/-- One row's loop is the flips of its 1 bits in turn. -/
theorem drawRow_flip (x y : Nat) (row : Byte) (acc : Grid × Bool) : drawRow x y row acc =
    flipAll x (([0, 1, 2, 3, 4, 5, 6, 7].filter fun b => row.getLsbD (7 - b)).map fun b => (b, y)) acc := by
  rw [flipAll, List.foldl_map, List.foldl_filter, drawRow]
  rfl

/-- The loops of R193 are the flips of the sprite's 1 bits in turn. -/
theorem drawRows_flip (rows : List Byte) : ∀ (x y acc), drawRows x y rows acc = flipAll x (visits y rows) acc := by
  induction rows with
  | nil => intros; rfl
  | cons r rows ih =>
    intro x y acc
    rw [drawRows, ih, drawRow_flip, visits, flipAll, flipAll, flipAll, List.foldl_append]

/-- A 1 bit of the sprite at column `x` lands on a pixel. -/
def hits (x : Nat) (p : Nat × Nat) (px py : Nat) : Bool := decide (px % 64 = (x + p.1) % 64 ∧ py % 32 = p.2 % 32)

/-- No two entries land on one pixel. -/
def PairwiseApart (x : Nat) (ps : List (Nat × Nat)) : Prop := ps.Pairwise fun p q => hits x p (x + q.1) q.2 = false

/-- Flipping distinct pixels: each flips once, and the collision is about the grid before. -/
theorem flipAll_spec (x : Nat) (ps : List (Nat × Nat)) : ∀ (acc : Grid × Bool), PairwiseApart x ps →
   (∀ px py, (flipAll x ps acc).1.isSet px py = (acc.1.isSet px py ^^ ps.any fun p => hits x p px py)) ∧
   ((flipAll x ps acc).2 = (acc.2 || ps.any fun p => acc.1.isSet (x + p.1) p.2)) := by
  induction ps with
  | nil => intro acc _; simp [flipAll]
  | cons p ps ih =>
    intro acc hd
    rw [PairwiseApart, List.pairwise_cons] at hd
    obtain ⟨i1, i2⟩ := ih (acc.1.flip (x + p.1) p.2, acc.2 || acc.1.isSet (x + p.1) p.2) hd.2
    have e : flipAll x (p :: ps) acc = flipAll x ps (acc.1.flip (x + p.1) p.2, acc.2 || acc.1.isSet (x + p.1) p.2) := rfl
    rw [e]
    constructor
    · intro px py
      rw [i1, Grid.isSet_flip, List.any_cons]
      show (acc.1.isSet px py ^^ hits x p px py ^^ _) = _
      have : hits x p px py = true → (ps.any fun p => hits x p px py) = false := by
        intro h; rw [List.any_eq_false]; intro q hq
        have := hd.1 q hq
        simp only [hits, decide_eq_true_eq, decide_eq_false_iff_not] at *
        omega
      cases h : hits x p px py
      · simp
      · simp [this h]
    · rw [i2, List.any_cons, Bool.or_assoc]
      congr 2
      rw [Bool.eq_iff_iff, List.any_eq_true, List.any_eq_true]
      constructor
      · rintro ⟨q, hq, h⟩; refine ⟨q, hq, ?_⟩
        rw [Grid.isSet_flip] at h
        have := hd.1 q hq
        rw [hits] at this; rw [this] at h; simpa using h
      · rintro ⟨q, hq, h⟩; refine ⟨q, hq, ?_⟩
        rw [Grid.isSet_flip]
        have := hd.1 q hq
        rw [hits] at this; rw [this]; simpa using h

/-- The entries are exactly the sprite's 1 bits. -/
theorem mem_visits (rows : List Byte) : ∀ y p, p ∈ visits y rows ↔ ∃ r b, SpriteBit rows r b ∧ p = (b, y + r) := by
  induction rows with
  | nil => intro y p; simp [visits, SpriteBit]
  | cons row rows ih =>
    intro y p
    rw [visits, List.mem_append, ih, List.mem_map]
    simp only [List.mem_filter]
    constructor
    · rintro (⟨b, ⟨hb, hr⟩, rfl⟩ | ⟨r, b, ⟨h1, h2, h3⟩, rfl⟩)
      · refine ⟨0, b, ⟨?_, by simp, by simpa using hr⟩, rfl⟩
        simp at hb; omega
      · exact ⟨r + 1, b, ⟨h1, by simpa using h2, by simpa using h3⟩, by simp; omega⟩
    · rintro ⟨r, b, ⟨h1, h2, h3⟩, rfl⟩
      cases r with
      | zero => left; refine ⟨b, ⟨by simp; omega, by simpa using h3⟩, rfl⟩
      | succ r => right; exact ⟨r, b, ⟨h1, by simpa using h2, by simpa using h3⟩, by simp; omega⟩

/-- R193: no pixel is visited twice. -/
theorem apart_visits (x : Nat) (rows : List Byte) : ∀ y, rows.length ≤ 32 → PairwiseApart x (visits y rows) := by
  induction rows with
  | nil => intro y _; exact List.Pairwise.nil
  | cons row rows ih =>
    intro y h
    simp only [List.length_cons] at h
    rw [visits, PairwiseApart, List.pairwise_append]
    refine ⟨?_, ih _ (by omega), ?_⟩
    · rw [List.pairwise_map]
      apply List.Pairwise.filter
      have : List.Pairwise (fun a b => a < b ∧ b < 8) [0,1,2,3,4,5,6,7] := by decide
      refine this.imp ?_
      intro a b hab; simp [hits]; omega
    · intro p hp q hq
      rw [mem_visits] at hq
      obtain ⟨r, b, ⟨h1, h2, h3⟩, rfl⟩ := hq
      simp only [List.mem_map] at hp
      obtain ⟨a, _, rfl⟩ := hp
      simp [hits]; omega

end Sys2Proof.Machine
end

