-- ==== Sys2Proof/Tests/Slice0.lean ====
section
/-! SUPPORT. Tests. Every expected value comes from the spec: a row of 95_test_vectors.md is named by its id. The last part
holds, for each obligation that has hypotheses, a concrete state and operands that meet them. -/

namespace Sys2Proof.Tests

open Sys2Proof Sys2Proof.Machine

-- One test after the other: each kernel check waits for the one before it, and a waiting test holds a thread.
set_option Elab.async false

/-! ## Helpers -/

/-- The launch state of R287: the bytes at 512, `PC` = 512. -/
def boot (bytes : List Byte) : State := State.reset.load bytes

/-- The outcome is a next state of which the check holds. -/
def nextIs (o : Host.Outcome State Fault Refusal) (p : State → Bool) : Bool :=
  match o with
  | .next t => p t
  | .fault _ => false
  | .refused _ => false

/-- One step of the program `bytes` from the launch state changed by `f`, and a check of the state after it. -/
def stepIs (bytes : List Byte) (f : State → State) (p : State → Bool) : Bool := nextIs (step (f (boot bytes))) p

/-- The columns of row `y` that are on. -/
def onInRow (s : State) (y : Nat) : List Nat := (List.range 64).filter fun x => s.isPixelSet x y

/-- Bytes put at an address. -/
def withBytes (a : Nat) (bs : List Byte) (s : State) : State := s.setMem (s.mem.writeList a bs)

/-! ## Well-formedness and truncated bytes (R80, R84) -/

theorem test_wellFormed_refuses_matched_opcode : (Instr.unmatched 0x6A2A).wellFormed = false := by decide

theorem test_wellFormed_refuses_matched_skip : (Instr.unmatched 0x5120).wellFormed = false := by decide

theorem test_wellFormed_takes_unmatched : (Instr.unmatched 0x5121).wellFormed = true := by decide

theorem test_decode_refuses_no_bytes : (match decode [] with | .ok _ => false | .error e => e == .truncated) = true := by
  decide

theorem test_decode_refuses_one_byte : (match decode [0x60] with | .ok _ => false | .error e => e == .truncated) = true := by
  decide

theorem test_decode_leaves_the_rest : (match decode [0x6A, 0x2A, 0x01] with
    | .ok r => r == (.ldVxKk 10 0x2A, [0x01])
    | .error _ => false) = true := by decide

/-! ## Decoding: every row of R86, its word written field by field (R82) -/

theorem test_decode_cls : decodeOp (0b0000#4 ++ 0b0000#4 ++ 0b1110#4 ++ 0b0000#4) = .cls := by decide
theorem test_decode_ret : decodeOp (0b0000#4 ++ 0b0000#4 ++ 0b1110#4 ++ 0b1110#4) = .ret := by decide
theorem test_decode_jp : decodeOp (0b0001#4 ++ 0b101010111100#12) = .jp 0xABC := by decide
theorem test_decode_call : decodeOp (0b0010#4 ++ 0b001100000001#12) = .call 0x301 := by decide
theorem test_decode_seVxKk : decodeOp (0b0011#4 ++ 0b1111#4 ++ 0b00010000#8) = .seVxKk 15 0x10 := by decide
theorem test_decode_sneVxKk : decodeOp (0b0100#4 ++ 0b0011#4 ++ 0b00010001#8) = .sneVxKk 3 0x11 := by decide
theorem test_decode_seVxVy : decodeOp (0b0101#4 ++ 0b0001#4 ++ 0b0010#4 ++ 0b0000#4) = .seVxVy 1 2 := by decide
theorem test_decode_ldVxKk : decodeOp (0b0110#4 ++ 0b1010#4 ++ 0b00101010#8) = .ldVxKk 10 0x2A := by decide
theorem test_decode_addVxKk : decodeOp (0b0111#4 ++ 0b0001#4 ++ 0b10010000#8) = .addVxKk 1 0x90 := by decide
theorem test_decode_ldVxVy : decodeOp (0b1000#4 ++ 0b1110#4 ++ 0b1111#4 ++ 0b0000#4) = .ldVxVy 14 15 := by decide
theorem test_decode_orVxVy : decodeOp (0b1000#4 ++ 0b0001#4 ++ 0b0010#4 ++ 0b0001#4) = .orVxVy 1 2 := by decide
theorem test_decode_andVxVy : decodeOp (0b1000#4 ++ 0b0001#4 ++ 0b0010#4 ++ 0b0010#4) = .andVxVy 1 2 := by decide
theorem test_decode_xorVxVy : decodeOp (0b1000#4 ++ 0b0001#4 ++ 0b0010#4 ++ 0b0011#4) = .xorVxVy 1 2 := by decide
theorem test_decode_addVxVy : decodeOp (0b1000#4 ++ 0b1010#4 ++ 0b1011#4 ++ 0b0100#4) = .addVxVy 10 11 := by decide
theorem test_decode_subVxVy : decodeOp (0b1000#4 ++ 0b0001#4 ++ 0b0010#4 ++ 0b0101#4) = .subVxVy 1 2 := by decide
theorem test_decode_shrVx : decodeOp (0b1000#4 ++ 0b1111#4 ++ 0b0000#4 ++ 0b0110#4) = .shrVx 15 0 := by decide
theorem test_decode_subnVxVy : decodeOp (0b1000#4 ++ 0b0001#4 ++ 0b0010#4 ++ 0b0111#4) = .subnVxVy 1 2 := by decide
theorem test_decode_shlVx : decodeOp (0b1000#4 ++ 0b0001#4 ++ 0b0010#4 ++ 0b1110#4) = .shlVx 1 2 := by decide
theorem test_decode_sneVxVy : decodeOp (0b1001#4 ++ 0b1010#4 ++ 0b1011#4 ++ 0b0000#4) = .sneVxVy 10 11 := by decide
theorem test_decode_ldINnn : decodeOp (0b1010#4 ++ 0b001011110000#12) = .ldINnn 0x2F0 := by decide
theorem test_decode_jpV0Nnn : decodeOp (0b1011#4 ++ 0b111111111111#12) = .jpV0Nnn 0xFFF := by decide
theorem test_decode_rndVxKk : decodeOp (0b1100#4 ++ 0b0001#4 ++ 0b00001111#8) = .rndVxKk 1 0x0F := by decide
theorem test_decode_drw : decodeOp (0b1101#4 ++ 0b0001#4 ++ 0b0010#4 ++ 0b0101#4) = .drw 1 2 5 := by decide
theorem test_decode_skpVx : decodeOp (0b1110#4 ++ 0b0001#4 ++ 0b10011110#8) = .skpVx 1 := by decide
theorem test_decode_sknpVx : decodeOp (0b1110#4 ++ 0b0001#4 ++ 0b10100001#8) = .sknpVx 1 := by decide
theorem test_decode_ldVxDt : decodeOp (0b1111#4 ++ 0b0101#4 ++ 0b00000111#8) = .ldVxDt 5 := by decide
theorem test_decode_ldVxK : decodeOp (0b1111#4 ++ 0b0011#4 ++ 0b00001010#8) = .ldVxK 3 := by decide
theorem test_decode_ldDtVx : decodeOp (0b1111#4 ++ 0b0100#4 ++ 0b00010101#8) = .ldDtVx 4 := by decide
theorem test_decode_ldStVx : decodeOp (0b1111#4 ++ 0b0100#4 ++ 0b00011000#8) = .ldStVx 4 := by decide
theorem test_decode_addIVx : decodeOp (0b1111#4 ++ 0b0010#4 ++ 0b00011110#8) = .addIVx 2 := by decide
theorem test_decode_ldFVx : decodeOp (0b1111#4 ++ 0b0011#4 ++ 0b00101001#8) = .ldFVx 3 := by decide
theorem test_decode_ldBVx : decodeOp (0b1111#4 ++ 0b0000#4 ++ 0b00110011#8) = .ldBVx 0 := by decide
theorem test_decode_ldMemVx : decodeOp (0b1111#4 ++ 0b0010#4 ++ 0b01010101#8) = .ldMemVx 2 := by decide
theorem test_decode_ldVxMem : decodeOp (0b1111#4 ++ 0b1111#4 ++ 0b01100101#8) = .ldVxMem 15 := by decide
theorem test_decode_unmatched : decodeOp (0b0000#4 ++ 0b0000#4 ++ 0b0000#4 ++ 0b0000#4) = .unmatched 0 := by decide

/-- V-ENC-6 to V-ENC-16: the near misses are no-ops. -/
theorem test_decode_near_misses :
    ([0x00E1, 0x0000, 0x0123, 0x5121, 0x9AB1, 0x8128, 0x812F, 0xE19F, 0xE1A0, 0xF100, 0xF175] : List Word).all
      (fun op => decodeOp op == .unmatched op) = true := by decide

/-- The encoder lays the fields out as R82 says. -/
theorem test_encode_words :
    encode (.addVxVy 10 11) = 0x8AB4 ∧ encode (.drw 1 2 5) = 0xD125 ∧ encode (.ldVxMem 0) = 0xF065 ∧
    encode (.jpV0Nnn 0xFFF) = 0xBFFF ∧ encode (.sneVxKk 3 0x10) = 0x4310 := by decide

theorem test_decodeTableWord : decodeTableWord 16 0x8AB4 = some (.addVxVy 10 11) := by decide

theorem test_withFetchWord_runs_first :
    nextIs (step (State.reset.withFetchWord 16 0x6A2A)) (fun t => t.reg 10 == 0x2A && t.pc == 514) = true := by
  decide +kernel

/-! ## The step cycle (section 2.2 of the vectors) -/

/-- V-STEP-1: big-endian. -/
theorem test_fetch_big_endian : stepIs [0x12, 0x34] id (fun t => t.pc == 0x234) = true := by decide +kernel

/-- V-STEP-2, second step: an odd `PC` fetches like any other. -/
theorem test_fetch_odd : stepIs [0x12, 0x03, 0x00, 0x6B, 0x07] (·.setPc 0x203)
    (fun t => t.reg 11 == 0x07 && t.pc == 0x205) = true := by decide +kernel

/-- V-STEP-3: the last even address is fetched from. -/
theorem test_fetch_4094 : stepIs [] (fun s => (withBytes 4094 [0x6A, 0x2A] s).setPc 4094)
    (fun t => t.reg 10 == 0x2A && t.pc == 4096 && t.mode == .running) = true := by decide +kernel

/-- V-STEP-5: the fetch at 4095 faults, `PC` stays. -/
theorem test_fetch_4095 : stepIs [] (·.setPc 4095)
    (fun t => t.mode == .faulted .boundsError && t.pc == 4095) = true := by decide +kernel

/-- V-STEP-6. -/
theorem test_step_waits : step ((boot [0x60, 0x01]).setMode (.awaitingKey 3)) =
    .next ((boot [0x60, 0x01]).setMode (.awaitingKey 3)) := rfl

/-- V-HOST-10: with the default font as a premise, the first step after `init` is a no-op. -/
theorem test_step_from_reset (h : Config.FontIsDefault) : step State.reset = .next (State.reset.setPc 2) := by
  have h0 : Memory.read State.reset.mem 0 = 0xF0 := h 0 (by decide)
  have h1 : Memory.read State.reset.mem 1 = 0x90 := h 1 (by decide)
  rw [step_running _ rfl (by decide)]
  show exec (decodeOp (Memory.read State.reset.mem 0 ++ Memory.read State.reset.mem 1)) _ = _
  rw [h0, h1]
  rfl

/-! ## Control flow (section 2.3) -/

theorem test_jp : stepIs [0x1A, 0xBC] id (fun t => t.pc == 0xABC) = true := by decide +kernel

/-- V-CF-2. -/
theorem test_call : stepIs [0x23, 0x00] id
    (fun t => t.sp == 1 && t.slot 1 == 0x0202 && t.pc == 0x300) = true := by decide +kernel

/-- V-CF-4, with its capacity 16 as a premise. -/
theorem test_call_overflow (h : Config.stackCapacity = 16) :
    exec (.call 0x300) ((boot []).setSp 15) = .next (((boot []).setSp 16).setMode (.faulted .stackOverflow)) := by
  simp only [exec, execCall]
  rw [State.push_raised _ _ (by rw [h]; decide)]
  rfl

/-- V-CF-5. -/
theorem test_ret : stepIs [0x00, 0xEE] (fun s => (s.setSp 2).setSlot 2 0xABC)
    (fun t => t.pc == 0xABC && t.sp == 1 && t.slot 2 == 0xABC) = true := by decide +kernel

/-- V-CF-6. -/
theorem test_ret_underflow : stepIs [0x00, 0xEE] id
    (fun t => t.mode == .faulted .stackUnderflow && t.sp == 0 && t.pc == 0x202) = true := by decide +kernel

/-- V-CF-8. -/
theorem test_jpV0_no_mask : stepIs [0xBF, 0xFF] (·.setReg 0 0xFF)
    (fun t => t.pc == 0x10FE && t.mode == .running) = true := by decide +kernel

theorem test_se_skips : stepIs [0x33, 0x10] (·.setReg 3 0x10) (fun t => t.pc == 0x204) = true := by decide +kernel
theorem test_se_goes_on : stepIs [0x33, 0x10] (·.setReg 3 0x11) (fun t => t.pc == 0x202) = true := by decide +kernel
theorem test_sne_goes_on : stepIs [0x43, 0x10] (·.setReg 3 0x10) (fun t => t.pc == 0x202) = true := by decide +kernel
theorem test_sne_skips : stepIs [0x43, 0x10] (·.setReg 3 0x11) (fun t => t.pc == 0x204) = true := by decide +kernel
theorem test_seVy_skips : stepIs [0x51, 0x20] (fun s => (s.setReg 1 7).setReg 2 7) (fun t => t.pc == 0x204) = true := by
  decide +kernel
theorem test_seVy_goes_on : stepIs [0x51, 0x20] (fun s => (s.setReg 1 7).setReg 2 8) (fun t => t.pc == 0x202) = true := by
  decide +kernel
theorem test_sneVy_skips : stepIs [0x91, 0x20] (fun s => (s.setReg 1 7).setReg 2 8) (fun t => t.pc == 0x204) = true := by
  decide +kernel
theorem test_sneVy_goes_on : stepIs [0x91, 0x20] (fun s => (s.setReg 1 7).setReg 2 7) (fun t => t.pc == 0x202) = true := by
  decide +kernel

/-- S10: an unmatched opcode only advances `PC`. -/
theorem test_unmatched : step (boot [0x00, 0x00]) = .next ((boot [0x00, 0x00]).setPc 0x202) := rfl

/-! ## Load, arithmetic, logic, shift, random (section 2.4) -/

theorem test_ld_vf : stepIs [0x6F, 0x01] id (fun t => t.reg 15 == 1) = true := by decide +kernel

/-- V-ALU-3. -/
theorem test_add_no_carry : stepIs [0x71, 0x20] (fun s => (s.setReg 1 0xF0).setReg 15 0x55)
    (fun t => t.reg 1 == 0x10 && t.reg 15 == 0x55) = true := by decide +kernel

/-- V-ALU-5. -/
theorem test_copy : stepIs [0x81, 0x20] (·.setReg 2 0x55) (fun t => t.reg 1 == 0x55 && t.reg 2 == 0x55) = true := by
  decide +kernel

/-- V-ALU-6. -/
theorem test_or : stepIs [0x81, 0x21] (fun s => ((s.setReg 1 0xF0).setReg 2 0x0F).setReg 15 1)
    (fun t => t.reg 1 == 0xFF && t.reg 15 == 1) = true := by decide +kernel

/-- V-ALU-7. -/
theorem test_and : stepIs [0x81, 0x22] (fun s => (s.setReg 1 0xF3).setReg 2 0x3C) (fun t => t.reg 1 == 0x30) = true := by
  decide +kernel

/-- V-ALU-8. -/
theorem test_xor : stepIs [0x81, 0x23] (fun s => (s.setReg 1 0xFF).setReg 2 0x0F) (fun t => t.reg 1 == 0xF0) = true := by
  decide +kernel

/-- V-ALU-9. -/
theorem test_addVy_carry : stepIs [0x81, 0x24] (fun s => (s.setReg 1 0xFA).setReg 2 0x0A)
    (fun t => t.reg 1 == 0x04 && t.reg 15 == 1) = true := by decide +kernel

/-- V-ALU-20: with x = 15 the sum lands last. -/
theorem test_addVy_into_vf : stepIs [0x8F, 0x14] (fun s => (s.setReg 15 0xF0).setReg 1 0x20)
    (fun t => t.reg 15 == 0x10) = true := by decide +kernel

/-- V-ALU-12: equal operands give 0. -/
theorem test_sub_equal : stepIs [0x81, 0x25] (fun s => ((s.setReg 1 0x33).setReg 2 0x33).setReg 15 9)
    (fun t => t.reg 1 == 0 && t.reg 15 == 0) = true := by decide +kernel

/-- V-ALU-23: y = 15 is read before the flag is written. -/
theorem test_sub_reads_vf : stepIs [0x81, 0xF5] (fun s => (s.setReg 1 9).setReg 15 1)
    (fun t => t.reg 1 == 8 && t.reg 15 == 1) = true := by decide +kernel

/-- V-ALU-14 (a). -/
theorem test_shr : stepIs [0x81, 0x26] (fun s => (s.setReg 1 5).setReg 2 0xAA)
    (fun t => t.reg 1 == 2 && t.reg 15 == 1 && t.reg 2 == 0xAA) = true := by decide +kernel

/-- V-ALU-15. -/
theorem test_shr_vf : stepIs [0x8F, 0x06] (·.setReg 15 6) (fun t => t.reg 15 == 3) = true := by decide +kernel

/-- V-ALU-16. -/
theorem test_subn : stepIs [0x81, 0x27] (fun s => (s.setReg 1 0x0A).setReg 2 0xFA)
    (fun t => t.reg 1 == 0xF0 && t.reg 15 == 1 && t.reg 2 == 0xFA) = true := by decide +kernel

/-- V-ALU-18. -/
theorem test_subn_equal : stepIs [0x81, 0x27] (fun s => (s.setReg 1 0x33).setReg 2 0x33)
    (fun t => t.reg 1 == 0 && t.reg 15 == 0) = true := by decide +kernel

/-- V-ALU-19 (a). -/
theorem test_shl : stepIs [0x81, 0x2E] (·.setReg 1 0x81) (fun t => t.reg 1 == 2 && t.reg 15 == 1) = true := by
  decide +kernel

/-- V-ALU-19 (b). -/
theorem test_shl_no_carry : stepIs [0x81, 0x2E] (fun s => (s.setReg 1 0x40).setReg 15 7)
    (fun t => t.reg 1 == 0x80 && t.reg 15 == 0) = true := by decide +kernel

/-- V-ALU-24: under the mask 0 every byte gives 0. -/
theorem test_rnd_zero (s : State) : ∃ t, exec (.rndVxKk 1 0) s = .next t ∧ t.reg 1 = 0 := by
  refine ⟨_, rfl, ?_⟩
  simp

/-! ## Index register and memory (section 2.5) -/

theorem test_ldI : stepIs [0xA2, 0xF0] id (fun t => t.i == 0x2F0) = true := by decide +kernel

/-- V-MEM-3. -/
theorem test_addI_past_memory : stepIs [0xF2, 0x1E] (fun s => (s.setI 0x0FFF).setReg 2 1)
    (fun t => t.i == 0x1000 && t.reg 15 == 0 && t.mode == .running) = true := by decide +kernel

/-- V-MEM-4. -/
theorem test_addI_wraps : stepIs [0xF2, 0x1E] (fun s => (s.setI 0xFFFF).setReg 2 2) (fun t => t.i == 1) = true := by
  decide +kernel

/-- V-MEM-5 (a). -/
theorem test_ldF : stepIs [0xF3, 0x29] (·.setReg 3 0x0A) (fun t => t.i == 50) = true := by decide +kernel

/-- V-MEM-5 (e): no mask. -/
theorem test_ldF_unmasked : stepIs [0xF3, 0x29] (·.setReg 3 0xFF) (fun t => t.i == 1275) = true := by decide +kernel

/-- V-MEM-7. -/
theorem test_bcd : stepIs [0xF0, 0x33] (fun s => (s.setI 4093).setReg 0 234)
    (fun t => t.mem.read 4093 == 2 && t.mem.read 4094 == 3 && t.mem.read 4095 == 4 && t.mode == .running) = true := by
  decide +kernel

/-- V-MEM-8. -/
theorem test_bcd_fault : stepIs [0xF0, 0x33] (fun s => (s.setI 4094).setReg 0 234)
    (fun t => t.mem.read 4094 == 2 && t.mem.read 4095 == 3 && t.mode == .faulted .boundsError && t.pc == 0x202) = true := by
  decide +kernel

/-- V-MEM-10. -/
theorem test_store : stepIs [0xF2, 0x55] (fun s => (((s.setReg 0 0x11).setReg 1 0x22).setReg 2 0x33).setI 0x400)
    (fun t => t.mem.read 0x400 == 0x11 && t.mem.read 0x401 == 0x22 && t.mem.read 0x402 == 0x33 && t.i == 0x400) = true := by
  decide +kernel

/-- V-MEM-12. -/
theorem test_store_fault : stepIs [0xF1, 0x55] (fun s => ((s.setReg 0 0xAA).setReg 1 0xBB).setI 4095)
    (fun t => t.mem.read 4095 == 0xAA && t.mode == .faulted .boundsError) = true := by decide +kernel

/-- V-MEM-13. -/
theorem test_load_regs : stepIs [0xF2, 0x65] (fun s => ((withBytes 0x300 [2, 3, 4] s).setI 0x300).setReg 3 0x77)
    (fun t => t.reg 0 == 2 && t.reg 1 == 3 && t.reg 2 == 4 && t.reg 3 == 0x77 && t.i == 0x300) = true := by decide +kernel

/-- V-MEM-14. -/
theorem test_load_regs_fault : stepIs [0xF2, 0x65] (fun s => ((withBytes 4094 [10, 11] s).setI 4094).setReg 2 0x77)
    (fun t => t.reg 0 == 10 && t.reg 1 == 11 && t.reg 2 == 0x77 && t.mode == .faulted .boundsError) = true := by
  decide +kernel

/-- V-MEM-16: a store into the font. -/
theorem test_store_font : ∃ t, exec (.ldMemVx 0) State.reset = .next t ∧ t.mem.read 0 = 0 :=
  ⟨_, rfl, Memory.read_write_same _ 0 _⟩

/-! ## Display (section 2.6) -/

/-- V-DSP-1. -/
theorem test_cls : stepIs [0x00, 0xE0] (fun s => (s.setFb (s.fb.flip 7 5)).setReg 15 1)
    (fun t => onInRow t 5 == [] && t.reg 15 == 1) = true := by decide +kernel

/-- S6: columns beyond 63 wrap. -/
theorem test_draw_wraps : stepIs [0xD0, 0x11] (fun s => ((withBytes 0x300 [0xFF] s).setI 0x300).setReg 0 60)
    (fun t => onInRow t 0 == [0, 1, 2, 3, 60, 61, 62, 63] && onInRow t 1 == [] && t.reg 15 == 0) = true := by
  decide +kernel

/-- V-DSP-11. -/
theorem test_pixel_query : ((boot []).setFb ((boot []).fb.flip 3 1)).isPixelSet 67 33 = true ∧
    ((boot []).setFb ((boot []).fb.flip 3 1)).isPixelSet 66 33 = false := by decide +kernel

/-- V-DSP-6. -/
theorem test_draw_collides :
    stepIs [0xD0, 0x11] (fun s => ((withBytes 0x300 [0xFF] s).setI 0x300).setFb (s.fb.flip 3 0))
      (fun t => onInRow t 0 == [0, 1, 2, 4, 5, 6, 7] && t.reg 15 == 1) = true := by decide +kernel

/-! ## Keys and timers (section 2.7) -/

theorem test_skp_down : stepIs [0xE2, 0x9E] (fun s => (s.setReg 2 5).setKey 5 true) (fun t => t.pc == 0x204) = true := by
  decide +kernel

/-- V-KT-5. -/
theorem test_skp_fault : stepIs [0xE2, 0x9E] (·.setReg 2 0x10)
    (fun t => t.pc == 0x202 && t.mode == .faulted .boundsError) = true := by decide +kernel

theorem test_sknp_up : stepIs [0xE2, 0xA1] (·.setReg 2 5) (fun t => t.pc == 0x204) = true := by decide +kernel
theorem test_sknp_down : stepIs [0xE2, 0xA1] (fun s => (s.setReg 2 5).setKey 5 true) (fun t => t.pc == 0x202) = true := by
  decide +kernel

/-- V-KT-6. -/
theorem test_ldK : stepIs [0xF3, 0x0A] id
    (fun t => t.mode == .awaitingKey 3 && t.pc == 0x202 && t.reg 3 == 0) = true := by decide +kernel

/-- V-KT-10. -/
theorem test_key_down_resolves :
    (fun t : State => t.reg 15 == 0x0A && t.mode == .running && t.isKeyDown 10)
      (((boot []).setMode (.awaitingKey 15)).keyDown 10) = true := by decide +kernel

/-- V-KT-11. -/
theorem test_ldDt : stepIs [0xF4, 0x15] (·.setReg 4 0x3C) (fun t => t.dt == 0x3C) = true := by decide +kernel
theorem test_ldVxDt : stepIs [0xF5, 0x07] (·.setDt 0x3C) (fun t => t.reg 5 == 0x3C && t.dt == 0x3C) = true := by
  decide +kernel

/-- V-KT-13. -/
theorem test_ldSt : stepIs [0xF4, 0x18] (·.setReg 4 2) (fun t => t.st == 2 && t.beep) = true := by decide +kernel

/-- V-KT-12 and V-KT-15: the last tick of `ST` beeps, and a timer at 0 stays there. -/
theorem test_tick : (fun s : State => s.beep && s.tickTimers.dt == 1 && s.tickTimers.st == 0 && !s.tickTimers.beep &&
    s.tickTimers.tickTimers.st == 0) (((boot []).setDt 2).setSt 1) = true := by decide +kernel

/-! ## Host commands (section 2.8) -/

/-- V-HOST-2. -/
theorem test_load : (fun s : State => s.pc == 0x200 && s.mem.read 0x200 == 0x60 && s.mem.read 0x203 == 0x02)
    (boot [0x60, 0x2A, 0x12, 0x02]) = true := by decide +kernel

/-- V-HOST-3. -/
theorem test_load_empty : boot [] = State.reset.setPc 0x200 := rfl

/-- V-HOST-5. -/
theorem test_load_too_large : State.reset.load (List.replicate 3584 0) = State.reset.setMode (.faulted .programTooLarge) := by
  rw [State.load, if_neg (by decide), if_pos (by rw [List.length_replicate])]
  rfl

/-- V-HOST-6. -/
theorem test_key_down_out_of_range : (State.reset.keyDown 16).faultOut = 1 ∧ (State.reset.keyDown 15).isKeyDown 15 = true := by
  decide +kernel

/-- V-HOST-8. -/
theorem test_faulted_ignores : (fun s : State => s.tickTimers == s && s.keyDown 1 == s && s.load [1, 2] == s && !s.beep &&
    s.faultOut == 1) ((((boot []).setDt 5).setSt 5).setMode (.faulted .boundsError)) = true := by decide +kernel

/-- V-HOST-11: the tail of an earlier program stays. -/
theorem test_load_again : (fun s : State => s.mem.read 0x200 == 0x61 && s.mem.read 0x201 == 0x07 && s.mem.read 0x202 == 0x12 &&
    s.pc == 0x200 && s.reg 0 == 0x2A) (((boot [0x60, 0x2A, 0x12, 0x02]).setReg 0 0x2A).load [0x61, 0x07]) = true := by
  decide +kernel

/-! ## Witnesses: concrete states and operands that meet the hypotheses of each obligation -/

/-- A capacity-many `SP`, as a byte. -/
theorem toNat_ofNat_capacity (k : Nat) (h : k ≤ Config.stackCapacity) : (BitVec.ofNat 8 k : Byte).toNat = k := by
  have := stackCapacity_bounds
  rw [BitVec.toNat_ofNat]
  omega

/-- The launch state with `SP` at a number of slots up to the capacity. -/
def withSp (k : Nat) : State := (boot []).setSp (BitVec.ofNat 8 k)

theorem withSp_sp (k : Nat) (h : k ≤ Config.stackCapacity) : (withSp k).sp.toNat = k := toNat_ofNat_capacity k h

/-- A launch state holds the invariant. -/
theorem boot_inv : (boot []).Inv := by
  have := stackCapacity_bounds
  have hs : boot [] = State.reset.setPc 0x200 := rfl
  rw [hs]
  exact ⟨rfl, by simp [State.reset], by simp [State.reset]; omega, fun k _ => by simp, fun k => by simp, by decide⟩

theorem witness_StepRunsDecodedInstruction : ∃ (s : State) (i : Instr), s.mode = .running ∧ s.pc.toNat + 1 < 4096 ∧
    (match decode [s.mem.read s.pc.toNat, s.mem.read (s.pc.toNat + 1)] with
      | .ok r => r == (i, [])
      | .error _ => false) = true :=
  ⟨(withBytes 4094 [0x6A, 0x2A] (boot [])).setPc 4094, .ldVxKk 10 0x2A, by decide +kernel⟩

theorem witness_StepIdleOrFetchFault_idle : ∃ s : State, s.mode ≠ .running := ⟨(boot []).setMode (.awaitingKey 0), by decide⟩

theorem witness_StepIdleOrFetchFault_fault : ∃ s : State, s.mode = .running ∧ 4095 ≤ s.pc.toNat := ⟨(boot []).setPc 4095, by decide⟩

theorem witness_DecodeEncodeRoundTrip : ∃ i : Instr, i.wellFormed = true := ⟨.unmatched 0x00E1, by decide⟩

theorem witness_DecodeFollowsOpcodeMap : ∃ r, r ∈ opcodeMap := ⟨⟨34, 0xF0FF, 0xF065⟩, by decide⟩

theorem witness_UnmatchedOpcodeIsNoOp : ∃ s : State, s.mode = .running ∧ s.pc.toNat + 1 < 4096 ∧
    ∀ r ∈ opcodeMap, (s.mem.read s.pc.toNat ++ s.mem.read (s.pc.toNat + 1)) &&& r.mask ≠ r.value :=
  ⟨(withBytes 4094 [0x51, 0x21] (boot [])).setPc 4094, by decide +kernel⟩

theorem witness_UnmatchedOpcodeIsNoOp_bounds : ∃ s : State, 4096 ≤ s.pc.toNat + 1 := ⟨(boot []).setPc 4095, by decide⟩

theorem witness_ResetLeavesTheTabulatedState : (∃ a, a < 80) ∧ ∃ a, 80 ≤ a ∧ a < 4096 := ⟨⟨79, by decide⟩, 80, by decide⟩

theorem witness_StepKeepsInvariant : ∃ s t : State, s.Inv ∧ step s = .next t := ⟨boot [], _, boot_inv, rfl⟩

theorem witness_CommandKeepsInvariant_EveryRunIsSafe : ∃ (s : State) (c : Command) (cs : List Command), s.Inv ∧ cs = [c, .step] :=
  ⟨boot [], .load [0x60, 0x2A], _, boot_inv, rfl⟩

theorem witness_StepAlwaysAnswers : ∃ s : State, s.Inv := ⟨boot [], boot_inv⟩

theorem witness_Inv_spFull : ∃ s : State, s.Inv ∧ s.sp.toNat = Config.stackCapacity := by
  obtain ⟨m1, _, _, m4, m5, m6⟩ := boot_inv
  have e := withSp_sp Config.stackCapacity (Nat.le_refl _)
  exact ⟨(withSp Config.stackCapacity).setMode (.faulted .stackOverflow), ⟨m1, Nat.le_of_eq e, fun _ => rfl, m4, m5, m6⟩, e⟩

theorem witness_InstructionsWriteOnlyTheMatrix : ∃ (i : Instr) (s t : State), exec i s = .next t :=
  ⟨.drw 0 1 1, boot [], _, rfl⟩

theorem witness_InstructionsReadOnlyTheMatrix : ∃ (i : Instr) (A : Field → Prop) (s s' t : State),
    (∀ f ∈ i.reads, A f) ∧ (∀ f, A f → f.same s s') ∧ exec i s = .next t ∧ s ≠ s' :=
  ⟨.addVxVy 1 2, fun f => f ∈ [Field.v 1, Field.v 2], boot [], (boot []).setI 7, _, by decide,
    fun f hf => onlyChanges_setI (boot []) 7 f (by revert hf; cases f <;> simp), rfl, by decide +kernel⟩

theorem witness_OnlySixInstructionsWriteTheFlag_leaves : ∃ (i : Instr) (s t : State), s.mode = .running ∧
    exec i s = .next t ∧ vf ∉ i.results ∧ i.setsFlag = false := ⟨.orVxVy 14 15, boot [], _, rfl, rfl, by decide, rfl⟩

theorem witness_OnlySixInstructionsWriteTheFlag_sets : ∃ (i : Instr) (s t : State), s.mode = .running ∧
    exec i s = .next t ∧ vf ∉ i.results ∧ i.setsFlag = true ∧ t.mode = .running :=
  ⟨.subVxVy 14 15, boot [], _, rfl, rfl, by decide, rfl, rfl⟩

theorem witness_FaultTable : ∃ (i : Instr) (s t : State), s.Inv ∧ s.mode = .running ∧ exec i s = .next t ∧
    i.faultCause s = some .boundsError := by
  obtain ⟨m1, m2, m3, m4, m5, m6⟩ := boot_inv
  refine ⟨.ldBVx 0, (boot []).setI 4094, ((withBytes 4094 [0, 0] ((boot []).setI 4094)).setMode (.faulted .boundsError)),
    ⟨m1, m2, m3, m4, m5, m6⟩, rfl, ?_, by decide⟩
  simp only [exec, execLdBVx]
  rw [State.storeBytes_raised _ _ _ (bcdDigits_ne_nil _) (by decide)]
  rfl

/-- The call that overflows, from a state with the invariant. -/
theorem witness_FaultTable_call : ∃ (s t : State), s.Inv ∧ s.mode = .running ∧ exec (.call 0x300) s = .next t ∧
    Instr.faultCause (.call 0x300) s = some .stackOverflow := by
  have hc := stackCapacity_bounds
  obtain ⟨m1, _, _, m4, m5, m6⟩ := boot_inv
  have e := withSp_sp (Config.stackCapacity - 1) (by omega)
  refine ⟨withSp (Config.stackCapacity - 1),
    ((withSp (Config.stackCapacity - 1)).setSp ((withSp (Config.stackCapacity - 1)).sp + 1)).setMode (.faulted .stackOverflow),
    ⟨m1, by omega, fun h => by omega, m4, m5, m6⟩, rfl, ?_, if_pos e⟩
  simp only [exec, execCall]
  rw [State.push_raised _ _ (by omega)]
  rfl

/-- The return from the empty stack, from a state with the invariant. -/
theorem witness_FaultTable_ret : ∃ (s t : State), s.Inv ∧ s.mode = .running ∧ exec .ret s = .next t ∧
    Instr.faultCause .ret s = some .stackUnderflow := ⟨boot [], _, boot_inv, rfl, rfl, rfl⟩

theorem witness_FaultIsLatchedUntilInit : ∃ (s : State) (c : FaultCause) (k : Command), s.mode = .faulted c ∧ k ≠ .init :=
  ⟨(boot []).setMode (.faulted .stackUnderflow), .stackUnderflow, .load [1], by decide⟩

/-- Each value of the fault output, and of `awaiting_key`, occurs. -/
theorem witness_FaultIsLatchedUntilInit_outputs : ((boot []).faultOut = 0 ∧ (boot []).awaitingKeyOut = false) ∧
    (((boot []).setMode (.awaitingKey 3)).faultOut = 0 ∧ ((boot []).setMode (.awaitingKey 3)).awaitingKeyOut = true) ∧
    [FaultCause.boundsError, .stackOverflow, .stackUnderflow, .programTooLarge].map
      (fun c => ((boot []).setMode (.faulted c)).faultOut) = [1, 2, 3, 4] := by decide

theorem witness_ByteMemoryPrimitives : (∃ a, a < 4096) ∧ ∃ a, 4096 ≤ a := ⟨⟨4095, by decide⟩, 4096, by decide⟩

theorem witness_ShortMemoryRead : (∃ a, a + 1 < 4096) ∧ ∃ a, 4096 ≤ a + 1 := ⟨⟨4094, by decide⟩, 4095, by decide⟩

/-- The boundaries of StackPrimitives, CallPushesAndJumps and ReturnPopsPc: the last call that succeeds, the one that
overflows, the empty stack and the full one. -/
theorem witness_stack_last_push : ∃ s : State, s.sp.toNat < Config.stackCapacity ∧ s.sp.toNat + 1 < Config.stackCapacity ∧
    s.sp.toNat + 2 = Config.stackCapacity := by
  have := stackCapacity_bounds
  exact ⟨withSp (Config.stackCapacity - 2), by rw [withSp_sp _ (by omega)]; omega⟩

theorem witness_stack_overflow : ∃ s : State, s.sp.toNat < Config.stackCapacity ∧ s.sp.toNat + 1 = Config.stackCapacity ∧
    0 < s.sp.toNat := by
  have := stackCapacity_bounds
  exact ⟨withSp (Config.stackCapacity - 1), by rw [withSp_sp _ (by omega)]; omega⟩

theorem witness_stack_empty : ∃ s : State, s.sp.toNat < Config.stackCapacity ∧ s.sp.toNat = 0 := by
  have := stackCapacity_bounds
  exact ⟨withSp 0, by rw [withSp_sp _ (by omega)]; omega⟩

theorem witness_ReturnFromAbsentSlotStops : ∃ s : State, Config.stackCapacity ≤ s.sp.toNat :=
  ⟨withSp Config.stackCapacity, by rw [withSp_sp _ (Nat.le_refl _)]⟩

/-- The lowest `SP` of the statement and the highest, where it wraps. -/
theorem witness_CallAboveCapacityOverflows : (∃ s : State, Config.stackCapacity ≤ s.sp.toNat ∧ s.sp.toNat = Config.stackCapacity) ∧
    ∃ s : State, Config.stackCapacity ≤ s.sp.toNat ∧ (s.sp.toNat + 1) % 256 = 0 := by
  have e := withSp_sp Config.stackCapacity (Nat.le_refl _)
  exact ⟨⟨withSp Config.stackCapacity, Nat.le_of_eq e.symm, e⟩, (boot []).setSp 255, stackCapacity_bounds.2, rfl⟩

/-- A jump to itself at 4094, and the target 4095. -/
theorem witness_JumpSetsPc : (∃ nnn : Addr, nnn.toNat = 4095) ∧ ∃ (nnn : Addr) (s : State), s.mode = .running ∧
    s.pc.toNat = nnn.toNat ∧ nnn.toNat < 4095 ∧ s.mem.read nnn.toNat ++ s.mem.read (nnn.toNat + 1) = opNNN 0x1 nnn :=
  ⟨⟨0xFFF, by decide⟩, 0xFFE, (withBytes 4094 [0x1F, 0xFE] (boot [])).setPc 4094, by decide +kernel⟩

theorem witness_CallThenReturnComesBack : ∃ (s : State) (nnn : Addr), s.mode = .running ∧ s.pc.toNat + 1 < 4096 ∧
    nnn.toNat + 1 < 4096 ∧ s.sp.toNat + 1 < Config.stackCapacity ∧
    s.mem.read s.pc.toNat ++ s.mem.read (s.pc.toNat + 1) = opNNN 0x2 nnn ∧
    s.mem.read nnn.toNat ++ s.mem.read (nnn.toNat + 1) = (0x00EE : Word) := by
  have := stackCapacity_bounds
  have h : (boot [0x22, 0x02, 0x00, 0xEE]).sp.toNat = 0 := by decide +kernel
  exact ⟨boot [0x22, 0x02, 0x00, 0xEE], 0x202, rfl, by decide +kernel, by decide, by omega, by decide +kernel, by decide +kernel⟩

theorem witness_IndexedJumpAddsV0 : ∃ (nnn : Addr) (s : State), 4095 ≤ nnn.toNat + (s.reg 0).toNat :=
  ⟨0xFFE, (boot []).setReg 0 1, by decide +kernel⟩

theorem witness_SkipsOnRegisters : ∃ n : Fin 16, n ≠ 0 := ⟨1, by decide⟩

theorem witness_LoadAndAddImmediate : ∃ s t : State, exec (.ldVxKk 1 0x90) s = .next t := ⟨boot [], _, rfl⟩

theorem witness_StoreDecimalDigits : ∃ s : State, s.i.toNat + 2 < 4096 := ⟨(boot []).setI 4093, by decide⟩

/-- The three ways in: two digits, one digit and no digit fit. -/
theorem witness_StoreDecimalDigitsFault : (∃ s : State, 4096 ≤ s.i.toNat + 2 ∧ s.i.toNat + 1 < 4096) ∧
    (∃ s : State, 4096 ≤ s.i.toNat + 1 ∧ s.i.toNat < 4096) ∧ ∃ s : State, 4096 ≤ s.i.toNat :=
  ⟨⟨(boot []).setI 4094, by decide⟩, ⟨(boot []).setI 4095, by decide⟩, (boot []).setI 4096, by decide⟩

theorem witness_StoreRegisters_LoadRegisters : ∃ (x : Reg) (s : State), s.i.toNat + x.val < 4096 ∧ s.i.toNat + x.val = 4095 :=
  ⟨15, (boot []).setI 4080, by decide⟩

theorem witness_BlockTransferFaults : ∃ (x r q : Reg) (s : State), 4096 ≤ s.i.toNat + x.val ∧ s.i.toNat + r.val < 4096 ∧
    4096 ≤ s.i.toNat + q.val := ⟨15, 14, 15, (boot []).setI 4081, by decide⟩

theorem witness_StoredRegistersLoadBack : ∃ (x : Reg) (s u t : State), s.i.toNat + x.val < 4096 ∧
    exec (.ldMemVx x) s = .next t ∧ (∀ a, u.mem.read a = t.mem.read a) ∧ u.i = s.i := by
  refine ⟨0, (boot []).setI 0x300, _, _, by decide, rfl, fun a => rfl, rfl⟩

theorem witness_StoredCodeIsFetchedAtOnce : ∃ (s : State) (x : Reg), s.mode = .running ∧
    s.mem.read s.pc.toNat ++ s.mem.read (s.pc.toNat + 1) = opXKK 0xF x 0x55 ∧ 1 ≤ x.val ∧
    s.i.toNat = s.pc.toNat + 2 ∧ s.i.toNat + x.val < 4096 :=
  ⟨(boot [0xF1, 0x55]).setI 0x202, 1, by decide +kernel⟩

theorem witness_SpriteFlipsAndCollides_Twice : ∃ rows : List Byte, rows.length ≤ 15 ∧ rows.length = 15 :=
  ⟨List.replicate 15 0xFF, by decide⟩

theorem witness_DrawInstruction : (∃ (n : Fin 16) (s : State), n.val = 0 ∧ 4096 < s.i.toNat + n.val) ∧
    ∃ (n : Fin 16) (s : State), n.val ≠ 0 ∧ s.i.toNat + n.val ≤ 4096 :=
  ⟨⟨0, (boot []).setI 0xFFFF, by decide⟩, 15, (boot []).setI 4081, by decide⟩

theorem witness_DrawInstructionFault : ∃ (n : Fin 16) (s : State), 1 ≤ n.val ∧ 4096 ≤ s.i.toNat + n.val - 1 :=
  ⟨15, (boot []).setI 4082, by decide⟩

theorem witness_PixelQueryWraps : ∃ (x y : Nat) (col : Fin 64) (row : Fin 32), col.val = x % 64 ∧ row.val = y % 32 ∧
    x ≠ col.val ∧ y ≠ row.val := ⟨67, 33, 3, 1, by decide⟩

theorem witness_KeySkips : (∃ (x : Reg) (s : State), (s.reg x).toNat < 16) ∧ ∃ (x : Reg) (s : State), 16 ≤ (s.reg x).toNat :=
  ⟨⟨2, (boot []).setReg 2 15, by decide +kernel⟩, 2, (boot []).setReg 2 16, by decide +kernel⟩

theorem witness_KeyWaitEntersAndResolves : ∃ (s : State) (r : Fin 16), s.mode = .awaitingKey r :=
  ⟨(boot []).setMode (.awaitingKey 15), 15, rfl⟩

theorem witness_KeyCommands : (∃ (s : State) (i : Nat), s.mode = .running ∧ i = 15) ∧
    (∃ (s : State) (i : Nat), s.isFaulted = false ∧ s.mode = .awaitingKey 3 ∧ i = 15) ∧
    ∃ (s : State) (i : Nat), s.isFaulted = false ∧ s.mode = .awaitingKey 3 ∧ i = 16 :=
  ⟨⟨boot [], 15, rfl, rfl⟩, ⟨(boot []).setMode (.awaitingKey 3), 15, rfl, rfl, rfl⟩,
    (boot []).setMode (.awaitingKey 3), 16, rfl, rfl, rfl⟩

theorem witness_TimerInstructions : ∃ s : State, s.mode = .running := ⟨boot [], rfl⟩

theorem witness_TimersCountDownToZero : ∃ (s : State) (k : Nat), s.isFaulted = false ∧ k < s.st.toNat ∧ s.dt.toNat < k :=
  ⟨((boot []).setSt 3).setDt 1, 2, rfl, by decide⟩

theorem witness_LoadPlacesTheProgram : ∃ s : State, s.isFaulted = false ∧ 512 + (List.replicate 3583 (0 : Byte)).length < 4096 ∧
    4096 ≤ 512 + (List.replicate 3584 (0 : Byte)).length := 
  ⟨State.reset, rfl, by rw [List.length_replicate]; decide, by rw [List.length_replicate]⟩

theorem witness_BootRunsTheFirstInstruction : ∃ (hi lo : Byte) (rest : List Byte), 512 + (hi :: lo :: rest).length < 4096 ∧
    512 + (hi :: lo :: rest).length = 4095 := 
  ⟨0x60, 0x2A, List.replicate 3581 0, by simp only [List.length_cons, List.length_replicate]; decide,
    by simp only [List.length_cons, List.length_replicate]⟩

end Sys2Proof.Tests
end

section
/-! The instructions that can end in more than one way: under which condition each end comes, and the state it
leaves. Every other instruction is one update of the state by definition. -/

namespace Sys2Proof.Machine

/-- R123: `00EE` underflows, returns, or names a slot the machine does not have (log entry 2). -/
theorem exec_ret_cases (s : State) :
    (s.sp = 0 ∧ exec .ret s = .next (s.setMode (.faulted .stackUnderflow))) ∨
    (s.sp ≠ 0 ∧ s.sp.toNat < Config.stackCapacity ∧
      exec .ret s = .next ((s.setSp (s.sp - 1)).setPc (s.slot s.sp.toNat))) ∨
    (Config.stackCapacity ≤ s.sp.toNat ∧ exec .ret s = .fault .stackSlotAbsent) := by
  obtain ⟨h0, e⟩ | ⟨h0, hsp, e⟩ | ⟨-, hsp, e⟩ := s.pop_cases
  · exact .inl ⟨h0, by simp [exec, execRet, e]⟩
  · exact .inr (.inl ⟨h0, hsp, by simp [exec, execRet, e]⟩)
  · exact .inr (.inr ⟨hsp, by simp [exec, execRet, e]⟩)

/-- R125: `2nnn` pushes and jumps, or overflows with `SP` left incremented. -/
theorem exec_call_cases (nnn : Addr) (s : State) :
    (s.sp.toNat + 1 < Config.stackCapacity ∧ exec (.call nnn) s =
      .next (((s.setSp (s.sp + 1)).setSlot (s.sp.toNat + 1) s.pc).setPc (zextAddr nnn))) ∨
    (Config.stackCapacity ≤ s.sp.toNat + 1 ∧ exec (.call nnn) s =
      .next ((s.setSp (s.sp + 1)).setMode (.faulted .stackOverflow))) := by
  obtain ⟨hsp, e⟩ | ⟨hsp, e⟩ := s.push_cases s.pc
  · exact .inl ⟨hsp, by simp [exec, execCall, e]⟩
  · exact .inr ⟨hsp, by simp [exec, execCall, e]⟩

/-- R194: `Dxyn` draws the rows at `I`, or faults when the last row is out of range. -/
theorem exec_drw_cases (x y : Reg) (n : Fin 16) (s : State) :
    ((n.val = 0 ∨ s.i.toNat + n.val ≤ 4096) ∧ exec (.drw x y n) s =
      .next (s.drawAt (s.reg x) (s.reg y) (s.spriteRows n.val))) ∨
    (n.val ≠ 0 ∧ 4096 < s.i.toNat + n.val ∧ exec (.drw x y n) s =
      .next (s.setMode (.faulted .boundsError))) := by
  obtain ⟨hn, e⟩ | ⟨h0, hn, e⟩ := s.fetchBytes_cases s.i.toNat n.val
  · exact .inl ⟨hn, by simp [exec, execDrw, e, State.spriteRows]⟩
  · exact .inr ⟨h0, hn, by simp [exec, execDrw, e]⟩

/-- R211: `Ex9E` skips when the key is down, or faults on an index of 16 or more. -/
theorem exec_skpVx_cases (x : Reg) (s : State) :
    (∃ h : (s.reg x).toNat < 16, exec (.skpVx x) s = .next (s.skipIf (s.keyAt ⟨(s.reg x).toNat, h⟩))) ∨
    (16 ≤ (s.reg x).toNat ∧ exec (.skpVx x) s = .next (s.setMode (.faulted .boundsError))) := by
  obtain ⟨hk, e⟩ | ⟨hk, e⟩ := s.keyRead_cases (s.reg x)
  · exact .inl ⟨hk, by simp [exec, execSkpVx, e]⟩
  · exact .inr ⟨hk, by simp [exec, execSkpVx, e]⟩

/-- R212: `ExA1` skips when the key is up, or faults on an index of 16 or more. -/
theorem exec_sknpVx_cases (x : Reg) (s : State) :
    (∃ h : (s.reg x).toNat < 16, exec (.sknpVx x) s = .next (s.skipIf (!s.keyAt ⟨(s.reg x).toNat, h⟩))) ∨
    (16 ≤ (s.reg x).toNat ∧ exec (.sknpVx x) s = .next (s.setMode (.faulted .boundsError))) := by
  obtain ⟨hk, e⟩ | ⟨hk, e⟩ := s.keyRead_cases (s.reg x)
  · exact .inl ⟨hk, by simp [exec, execSknpVx, e]⟩
  · exact .inr ⟨hk, by simp [exec, execSknpVx, e]⟩

/-- R175, R178: `Fx33` stores the three digits, or those below 4096 and then faults. -/
theorem exec_ldBVx_cases (x : Reg) (s : State) :
    (s.i.toNat + 3 ≤ 4096 ∧ exec (.ldBVx x) s =
      .next (s.setMem (s.mem.writeList s.i.toNat (bcdDigits (s.reg x))))) ∨
    (4096 < s.i.toNat + 3 ∧ exec (.ldBVx x) s =
      .next ((s.setMem (s.mem.writeList s.i.toNat ((bcdDigits (s.reg x)).take (4096 - s.i.toNat)))).setMode
        (.faulted .boundsError))) := by
  obtain ⟨hl, e⟩ | ⟨hl, e⟩ := s.storeBytes_cases s.i.toNat _ (bcdDigits_ne_nil (s.reg x))
  · exact .inl ⟨hl, by simp [exec, execLdBVx, e]⟩
  · exact .inr ⟨hl, by simp [exec, execLdBVx, e]⟩

theorem map_regsUpTo_ne_nil (x : Reg) (g : Reg → Byte) : (regsUpTo x).map g ≠ [] := by
  simpa using regsUpTo_ne_nil x

/-- R176, R178: `Fx55` stores `V0` to `Vx`, or those that land below 4096 and then faults. -/
theorem exec_ldMemVx_cases (x : Reg) (s : State) :
    (s.i.toNat + x.val < 4096 ∧ exec (.ldMemVx x) s =
      .next (s.setMem (s.mem.writeList s.i.toNat ((regsUpTo x).map s.reg)))) ∨
    (4096 ≤ s.i.toNat + x.val ∧ exec (.ldMemVx x) s =
      .next ((s.setMem (s.mem.writeList s.i.toNat (((regsUpTo x).map s.reg).take (4096 - s.i.toNat)))).setMode
        (.faulted .boundsError))) := by
  obtain ⟨hl, e⟩ | ⟨hl, e⟩ := s.storeBytes_cases s.i.toNat _ (map_regsUpTo_ne_nil x s.reg) <;>
    rw [List.length_map, length_regsUpTo] at hl
  · exact .inl ⟨by omega, by simp [exec, execLdMemVx, e]⟩
  · exact .inr ⟨by omega, by simp [exec, execLdMemVx, e]⟩

/-- R177, R178: `Fx65` loads `V0` to `Vx`, or those that lie below 4096 and then faults. -/
theorem exec_ldVxMem_cases (x : Reg) (s : State) :
    (s.i.toNat + x.val < 4096 ∧ exec (.ldVxMem x) s = .next (s.loaded s.i.toNat (regsUpTo x))) ∨
    (4096 ≤ s.i.toNat + x.val ∧ exec (.ldVxMem x) s =
      .next ((s.loaded s.i.toNat ((regsUpTo x).take (4096 - s.i.toNat))).setMode (.faulted .boundsError))) := by
  obtain ⟨hl, e⟩ | ⟨hl, e⟩ := s.loadRegs_cases s.i.toNat _ (regsUpTo_ne_nil x) <;> rw [length_regsUpTo] at hl
  · exact .inl ⟨by omega, by simp [exec, execLdVxMem, e]⟩
  · exact .inr ⟨by omega, by simp [exec, execLdVxMem, e]⟩

/-- Settles O25: with `SP` at the capacity or above, the underflow and the pop are both excluded. -/
theorem returnFromAbsentSlotStops : Obligations.ReturnFromAbsentSlotStops := by
  intro s hs
  have hcap := stackCapacity_bounds
  obtain ⟨h0, -⟩ | ⟨-, hsp, -⟩ | ⟨-, e⟩ := exec_ret_cases s
  · have : s.sp.toNat = 0 := congrArg BitVec.toNat h0
    omega
  · omega
  · exact e

end Sys2Proof.Machine
end

section
/-! The invariant (R24, R25, R30, R33, R123): what each update of the state needs in order to keep it. -/

namespace Sys2Proof.Machine

/-- Settles O10: every field of the reset state is zero. -/
theorem resetSatisfiesInvariant : Obligations.ResetSatisfiesInvariant where
  memWf := Memory.wf_reset
  spBound := Nat.zero_le _
  spFull h := absurd h (Nat.ne_of_lt (Nat.lt_of_lt_of_le (by decide) stackCapacity_bounds.1))
  deadSlots k _ := State.reset_slot k
  slotBound k := by simp
  pcBound := Nat.zero_le _

/-- R103, R131: an advance of `PC` below its width does not wrap. -/
theorem toNat_add_two {w : Word} (h : w.toNat < 65534) : (w + 2).toNat = w.toNat + 2 := by bv_omega

namespace State.Inv

section
variable {s t : State} (h : s.Inv)
include h

/-- The invariant speaks of memory, `SP`, `MODE`, the stack and `PC` only. -/
theorem of_same (hmem : t.mem = s.mem) (hsp : t.sp = s.sp) (hmode : t.mode = s.mode) (hstk : t.stk = s.stk)
    (hpc : t.pc = s.pc) : t.Inv := by
  obtain ⟨memWf, spBound, spFull, deadSlots, slotBound, pcBound⟩ := h
  have hslot : ∀ k, t.slot k = s.slot k := fun k => by simp only [State.slot, hstk]
  constructor <;> simpa only [hmem, hsp, hmode, hslot, hpc]

/-- R25: in `Running` the stack pointer names a slot the machine has. -/
theorem sp_lt (hm : s.mode = .running) : s.sp.toNat < Config.stackCapacity := by
  have hne : s.sp.toNat ≠ Config.stackCapacity := fun e => by simpa [hm] using h.spFull e
  have := h.spBound
  omega

theorem setPc {w : Word} (hw : w.toNat ≤ 4350) : (s.setPc w).Inv := { h with pcBound := hw }

theorem skipIf (hpc : s.pc.toNat ≤ 4096) (c : Bool) : (s.skipIf c).Inv := by
  rw [State.skipIf_eq]
  refine h.setPc ?_
  split
  · rw [toNat_add_two (by omega)]; omega
  · omega

theorem setMem {m : Memory} (hw : m.wf = true) : (s.setMem m).Inv := { h with memWf := hw }

theorem setMode (hsp : s.sp.toNat < Config.stackCapacity) (m : Mode) : (s.setMode m).Inv :=
  { h with spFull := fun e => absurd e hsp.ne }

theorem setSp {b : Byte} (hb : b.toNat < Config.stackCapacity) : (s.setSp b).Inv :=
  { h with spBound := Nat.le_of_lt hb, spFull := fun e => absurd e hb.ne }

/-- R25: a push beyond the last slot may leave `SP` at the capacity, since it ends in the fault. -/
theorem overflow {b : Byte} (hb : b.toNat ≤ Config.stackCapacity) :
    ((s.setSp b).setMode (.faulted .stackOverflow)).Inv :=
  { h with spBound := hb, spFull := fun _ => rfl }

/-- R33, R123: a slot the machine has, other than slot 0, may get any address up to 4096. -/
theorem setSlot {k : Nat} {w : Word} (h0 : k ≠ 0) (hk : k < Config.stackCapacity) (hw : w.toNat ≤ 4096) :
    (s.setSlot k w).Inv := by
  have hslot := s.slot_setSlot (hk.trans_le stackCapacity_bounds.2)
  refine { h with deadSlots := fun j hj => ?_, slotBound := fun j => ?_ }
  · rw [hslot, if_neg (by omega)]
    exact h.deadSlots j hj
  · rw [hslot]
    split
    · exact hw
    · exact h.slotBound j

theorem loaded (a : Nat) (rs : List Reg) : (s.loaded a rs).Inv := by
  rw [State.loaded_frame]
  exact h.of_same rfl rfl rfl rfl rfl

end

end State.Inv

/-- R178: the bytes of a store that land below 4096 keep the canonical form. -/
theorem Memory.wf_writeList_take (bs : List Byte) (m : Memory) (a : Nat) (hm : m.wf = true) :
    (m.writeList a (bs.take (4096 - a))).wf = true := by
  by_cases ha : a ≤ 4096
  · exact Memory.wf_writeList _ m a (by rw [List.length_take, Config.memSize]; omega) hm
  · rw [Nat.sub_eq_zero_of_le (by omega)]
    exact hm

/-- An instruction keeps the invariant, from a `PC` that the auto-advance can leave. -/
theorem exec_keeps_inv {i : Instr} {s t : State} (h : s.Inv) (hm : s.mode = .running) (hpc : s.pc.toNat ≤ 4096)
    (e : exec i s = .next t) : t.Inv := by
  have hsp := h.sp_lt hm
  cases i with
  | cls | ldVxKk | addVxKk | ldVxVy | orVxVy | andVxVy | xorVxVy | addVxVy | subVxVy | shrVx | subnVxVy | shlVx
  | ldINnn | rndVxKk | ldVxDt | ldDtVx | ldStVx | addIVx | ldFVx | unmatched =>
    obtain rfl := Host.Outcome.next.inj e
    exact h.of_same rfl rfl rfl rfl rfl
  | seVxKk | sneVxKk | seVxVy | sneVxVy =>
    obtain rfl := Host.Outcome.next.inj e
    exact h.skipIf hpc _
  | jp nnn =>
    obtain rfl := Host.Outcome.next.inj e
    exact h.setPc (by rw [toNat_zextAddr]; omega)
  | jpV0Nnn nnn =>
    obtain rfl := Host.Outcome.next.inj e
    exact h.setPc (by rw [BitVec.toNat_add, toNat_zextAddr, toNat_zextByte]; omega)
  | ldVxK x =>
    obtain rfl := Host.Outcome.next.inj e
    exact h.setMode hsp _
  | ret =>
    obtain ⟨-, e'⟩ | ⟨h0, -, e'⟩ | ⟨-, e'⟩ := exec_ret_cases s <;> cases e'.symm.trans e
    · exact h.setMode hsp _
    · have hpop : (s.sp - 1).toNat < s.sp.toNat := by bv_omega
      exact (h.setSp (hpop.trans hsp)).setPc ((h.slotBound _).trans (by decide))
  | call nnn =>
    have hpush : (s.sp + 1).toNat ≤ s.sp.toNat + 1 := by rw [BitVec.toNat_add]; exact Nat.mod_le _ _
    obtain ⟨hk, e'⟩ | ⟨-, e'⟩ := exec_call_cases nnn s <;> cases e'.symm.trans e
    · exact ((h.setSp (hpush.trans_lt hk)).setSlot (by omega) hk hpc).setPc (by rw [toNat_zextAddr]; omega)
    · exact h.overflow (hpush.trans hsp)
  | drw x y n =>
    obtain ⟨-, e'⟩ | ⟨-, -, e'⟩ := exec_drw_cases x y n s <;> cases e'.symm.trans e
    · exact h.of_same rfl rfl rfl rfl rfl
    · exact h.setMode hsp _
  | skpVx x =>
    obtain ⟨_, e'⟩ | ⟨-, e'⟩ := exec_skpVx_cases x s <;> cases e'.symm.trans e
    · exact h.skipIf hpc _
    · exact h.setMode hsp _
  | sknpVx x =>
    obtain ⟨_, e'⟩ | ⟨-, e'⟩ := exec_sknpVx_cases x s <;> cases e'.symm.trans e
    · exact h.skipIf hpc _
    · exact h.setMode hsp _
  | ldBVx x =>
    obtain ⟨hl, e'⟩ | ⟨-, e'⟩ := exec_ldBVx_cases x s <;> cases e'.symm.trans e
    · exact h.setMem (Memory.wf_writeList _ _ _ hl h.memWf)
    · exact (h.setMem (Memory.wf_writeList_take _ _ _ h.memWf)).setMode hsp _
  | ldMemVx x =>
    obtain ⟨hl, e'⟩ | ⟨-, e'⟩ := exec_ldMemVx_cases x s <;> cases e'.symm.trans e
    · exact h.setMem (Memory.wf_writeList _ _ _ (by simp; omega) h.memWf)
    · exact (h.setMem (Memory.wf_writeList_take _ _ _ h.memWf)).setMode hsp _
  | ldVxMem x =>
    obtain ⟨-, e'⟩ | ⟨-, e'⟩ := exec_ldVxMem_cases x s <;> cases e'.symm.trans e
    · exact h.loaded _ _
    · exact (h.loaded _ _).setMode (by rw [State.loaded_frame]; exact hsp) _

/-- Settles O11: a step does nothing, its fetch faults, or the instruction at `PC` runs with `PC` at most 4096. -/
theorem stepKeepsInvariant : Obligations.StepKeepsInvariant := by
  intro s t h hstep
  obtain ⟨-, rfl⟩ | ⟨hm, -, rfl⟩ | ⟨hm, hp, e⟩ := step_cases hstep
  · exact h
  · exact h.setMode (h.sp_lt hm) _
  · have hpc : (s.pc + 2).toNat ≤ 4096 := by rw [toNat_add_two (by omega)]; omega
    exact exec_keeps_inv (h.setPc (hpc.trans (by decide))) hm hpc e

end Sys2Proof.Machine
end

section
/-! The columns w of the access matrix (R43): what an instruction changes. -/

namespace Sys2Proof.Machine

/-- Two changes in turn change what either of them may. -/
theorem OnlyChanges.andAlso {fs gs : List Field} {s t u : State} (h : OnlyChanges fs s t)
    (h' : OnlyChanges gs t u) : OnlyChanges (fs ++ gs) s u :=
  (h.mono (List.subset_append_left fs gs)).trans (h'.mono (List.subset_append_right fs gs))

theorem onlyChanges_drawAt (s : State) (x y : Byte) (rows : List Byte) :
    OnlyChanges [.fb, .v vf] s (s.drawAt x y rows) :=
  (onlyChanges_setFb s _).andAlso (onlyChanges_setReg _ vf _)

/-- Settles O14: each end an instruction can come to is a composition of updates whose frames are known. -/
theorem instructionsWriteOnlyTheMatrix : Obligations.InstructionsWriteOnlyTheMatrix := by
  intro i s t e
  cases i with
  | ldVxKk | addVxKk | ldVxVy | orVxVy | andVxVy | xorVxVy | ldVxDt =>
    obtain rfl := Host.Outcome.next.inj e
    exact onlyChanges_setReg s _ _
  | addVxVy | subVxVy | shrVx | subnVxVy | shlVx =>
    obtain rfl := Host.Outcome.next.inj e
    exact onlyChanges_setFlagThenReg s _ _ _
  | seVxKk | sneVxKk | seVxVy | sneVxVy =>
    obtain rfl := Host.Outcome.next.inj e
    exact onlyChanges_skipIf s _
  | jp | jpV0Nnn =>
    obtain rfl := Host.Outcome.next.inj e
    exact onlyChanges_setPc s _
  | ldINnn | addIVx | ldFVx =>
    obtain rfl := Host.Outcome.next.inj e
    exact onlyChanges_setI s _
  | cls =>
    obtain rfl := Host.Outcome.next.inj e
    exact onlyChanges_setFb s _
  | ldVxK =>
    obtain rfl := Host.Outcome.next.inj e
    exact onlyChanges_setMode s _
  | ldDtVx =>
    obtain rfl := Host.Outcome.next.inj e
    exact onlyChanges_setDt s _
  | ldStVx =>
    obtain rfl := Host.Outcome.next.inj e
    exact onlyChanges_setSt s _
  | unmatched =>
    obtain rfl := Host.Outcome.next.inj e
    exact .refl _ s
  | rndVxKk x kk =>
    obtain rfl := Host.Outcome.next.inj e
    exact ((onlyChanges_countDraw s).andAlso (onlyChanges_setReg _ x _)).mono (by simp [Instr.writes])
  | ret =>
    obtain ⟨-, e'⟩ | ⟨-, -, e'⟩ | ⟨-, e'⟩ := exec_ret_cases s <;> cases e'.symm.trans e
    · exact (onlyChanges_setMode s _).mono (by simp [Instr.writes])
    · exact ((onlyChanges_setSp s _).andAlso (onlyChanges_setPc _ _)).mono (by simp [Instr.writes])
  | call nnn =>
    obtain ⟨-, e'⟩ | ⟨-, e'⟩ := exec_call_cases nnn s <;> cases e'.symm.trans e
    · exact (((onlyChanges_setSp s _).andAlso (onlyChanges_setSlot _ _ _)).andAlso
        (onlyChanges_setPc _ _)).mono (by simp [Instr.writes])
    · exact ((onlyChanges_setSp s _).andAlso (onlyChanges_setMode _ _)).mono (by simp [Instr.writes])
  | drw x y n =>
    obtain ⟨-, e'⟩ | ⟨-, -, e'⟩ := exec_drw_cases x y n s <;> cases e'.symm.trans e
    · exact (onlyChanges_drawAt s _ _ _).mono (by simp [Instr.writes])
    · exact (onlyChanges_setMode s _).mono (by simp [Instr.writes])
  | skpVx x =>
    obtain ⟨_, e'⟩ | ⟨-, e'⟩ := exec_skpVx_cases x s <;> cases e'.symm.trans e
    · exact (onlyChanges_skipIf s _).mono (by simp [Instr.writes])
    · exact (onlyChanges_setMode s _).mono (by simp [Instr.writes])
  | sknpVx x =>
    obtain ⟨_, e'⟩ | ⟨-, e'⟩ := exec_sknpVx_cases x s <;> cases e'.symm.trans e
    · exact (onlyChanges_skipIf s _).mono (by simp [Instr.writes])
    · exact (onlyChanges_setMode s _).mono (by simp [Instr.writes])
  | ldBVx x =>
    obtain ⟨-, e'⟩ | ⟨-, e'⟩ := exec_ldBVx_cases x s <;> cases e'.symm.trans e
    · exact (onlyChanges_setMem s _).mono (by simp [Instr.writes])
    · exact ((onlyChanges_setMem s _).andAlso (onlyChanges_setMode _ _)).mono (by simp [Instr.writes])
  | ldMemVx x =>
    obtain ⟨-, e'⟩ | ⟨-, e'⟩ := exec_ldMemVx_cases x s <;> cases e'.symm.trans e
    · exact (onlyChanges_setMem s _).mono (by simp [Instr.writes])
    · exact ((onlyChanges_setMem s _).andAlso (onlyChanges_setMode _ _)).mono (by simp [Instr.writes])
  | ldVxMem x =>
    obtain ⟨-, e'⟩ | ⟨-, e'⟩ := exec_ldVxMem_cases x s <;> cases e'.symm.trans e
    · exact (onlyChanges_loaded s _ _).mono (List.subset_cons_self _ _)
    · have htake := List.map_subset Field.v (List.take_subset (4096 - s.i.toNat) (regsUpTo x))
      exact ((onlyChanges_loaded s _ _).andAlso (onlyChanges_setMode _ _)).mono
        (List.append_subset.mpr ⟨List.subset_cons_of_subset _ htake, by simp [Instr.writes]⟩)

/-! ## The flag register (R22) -/

theorem flagByte_eq_zero_or_one (c : Bool) : flagByte c = 0 ∨ flagByte c = 1 := by
  cases c
  · exact .inl rfl
  · exact .inr rfl

/-- R22: VF is in an instruction's w columns as its named result or as the side effect of one of the six. -/
theorem vf_mem_results_of_mem_writes {i : Instr} (h : .v vf ∈ i.writes) (hf : i.setsFlag = false) :
    vf ∈ i.results := by
  cases i <;> simp_all [Instr.writes, Instr.setsFlag, Instr.results]

/-- R22: each of the six that does not fault leaves a flag byte in VF, unless its result lands there. -/
theorem reg_vf_of_setsFlag {i : Instr} {s t : State} (e : exec i s = .next t) (hr : vf ∉ i.results)
    (hf : i.setsFlag = true) (ht : t.mode = .running) : ∃ c, t.reg vf = flagByte c := by
  cases i with
  | addVxVy x | subVxVy x | shrVx x | subnVxVy x | shlVx x =>
    obtain rfl := Host.Outcome.next.inj e
    have hx : x ≠ vf := fun hx => hr (hx ▸ List.mem_singleton_self x)
    exact ⟨_, s.reg_setFlagThenReg_flag hx _ _⟩
  | drw x y n =>
    obtain ⟨-, e'⟩ | ⟨-, -, e'⟩ := exec_drw_cases x y n s <;> cases e'.symm.trans e
    · exact ⟨_, State.reg_setReg_same _ vf _⟩
    · cases ht
  | _ => cases hf

/-- Settles O16: the others leave VF alone by the access matrix, the six leave a flag byte there. -/
theorem onlySixInstructionsWriteTheFlag : Obligations.OnlySixInstructionsWriteTheFlag := by
  intro i s t _ e hr
  constructor
  · intro hf
    exact instructionsWriteOnlyTheMatrix i s t e (.v vf) fun hw => hr (vf_mem_results_of_mem_writes hw hf)
  · intro hf ht
    obtain ⟨c, hc⟩ := reg_vf_of_setsFlag e hr hf ht
    rw [hc]
    exact flagByte_eq_zero_or_one c

end Sys2Proof.Machine
end

section
/-! Two runs (R43's columns r): operations and instructions on two states that hold the same in a set of fields. -/

namespace Sys2Proof.Machine

/-- The two states hold the same in every field of the set. -/
abbrev Agree (A : Field → Prop) (s s' : State) : Prop := ∀ f, A f → f.same s s'

/-- Two results of an operation end alike, with one value or cause, in states that agree. -/
def Result.Agree {α : Type} (A : Field → Prop) : Result α → Result α → Prop
  | .ok a u, .ok a' u' => a = a' ∧ Machine.Agree A u u'
  | .raised c u, .raised c' u' => c = c' ∧ Machine.Agree A u u'
  | .stopped f, .stopped f' => f = f'
  | _, _ => False

/-- If the first outcome is a next state, so is the second, and the two states agree. -/
def AgreeNext (A : Field → Prop) (o o' : Host.Outcome State Fault Refusal) : Prop :=
  ∀ t, o = .next t → ∃ t', o' = .next t' ∧ Agree A t t'

theorem agreeNext_of_agree {A : Field → Prop} {u u' : State} (h : Agree A u u') :
    AgreeNext A (.next u) (.next u') := by
  rintro _ ⟨⟩
  exact ⟨u', rfl, h⟩

/-- An instruction that ends an operation depends on no more than the operation and what follows it do. -/
theorem Result.Agree.andThen {α : Type} {A : Field → Prop} {r r' : Result α}
    {k k' : α → State → Host.Outcome State Fault Refusal} (h : r.Agree A r')
    (hk : ∀ a u u', Machine.Agree A u u' → AgreeNext A (k a u) (k' a u')) :
    AgreeNext A (r.andThen k) (r'.andThen k') := by
  match r, r', h with
  | .ok a u, .ok _ u', ⟨rfl, hu⟩ => exact hk a u u' hu
  | .raised c u, .raised _ u', ⟨rfl, hu⟩ => exact agreeNext_of_agree (agree_setMode hu _)
  | .stopped f, .stopped _, rfl => exact fun _ e => by cases e

section
variable {A : Field → Prop} {s s' : State} (h : Agree A s s')
include h

theorem agree_setFlagThenReg (x : Reg) (f b : Byte) :
    Agree A (s.setFlagThenReg x f b) (s'.setFlagThenReg x f b) :=
  agree_setReg (agree_setReg h vf f) x b

theorem agree_drawAt (hfb : Field.fb.same s s') (x y : Byte) (rows : List Byte) :
    Agree A (s.drawAt x y rows) (s'.drawAt x y rows) := by
  have hfb : s'.fb = s.fb := hfb
  simp only [State.drawAt, hfb]
  exact agree_setReg (agree_setFb h _) vf _

/-- R121: a push reads `SP`. -/
theorem agree_push (hsp : s'.sp = s.sp) (w : Word) : (s.push w).Agree A (s'.push w) := by
  obtain ⟨hk, e⟩ | ⟨hk, e⟩ := s.push_cases w <;> rw [← hsp] at hk
  · rw [e, s'.push_ok w hk, hsp]
    exact ⟨rfl, agree_setSlot (agree_setSp h _) _ w⟩
  · rw [e, s'.push_raised w hk, hsp]
    exact ⟨rfl, agree_setSp h _⟩

/-- R122: a pop reads `SP` and the stack. -/
theorem agree_pop (hsp : s'.sp = s.sp) (hstk : s'.stk = s.stk) : s.pop.Agree A s'.pop := by
  have hslot : s'.slot s.sp.toNat = s.slot s.sp.toNat := by rw [State.slot, hstk, State.slot]
  obtain ⟨h0, e⟩ | ⟨h0, hk, e⟩ | ⟨h0, hk, e⟩ := s.pop_cases
  · rw [e, s'.pop_raised (hsp.trans h0)]
    exact ⟨rfl, h⟩
  · rw [e, s'.pop_ok (hsp ▸ h0) (hsp ▸ hk), hsp, hslot]
    exact ⟨rfl, agree_setSp h _⟩
  · rw [e, s'.pop_stopped (hsp ▸ h0) (hsp ▸ hk)]
    exact rfl

/-- R210: a key read depends on the keys. -/
theorem agree_keyRead (hkey : s'.key = s.key) (b : Byte) : (s.keyRead b).Agree A (s'.keyRead b) := by
  obtain ⟨hb, e⟩ | ⟨hb, e⟩ := s.keyRead_cases b
  · rw [e, s'.keyRead_ok b hb]
    exact ⟨by rw [State.keyAt, State.keyAt, hkey], h⟩
  · rw [e, s'.keyRead_raised b hb]
    exact ⟨rfl, h⟩

/-- R178: a store depends on its address and its bytes alone. -/
theorem agree_storeBytes (a : Nat) {bs : List Byte} (hb : bs ≠ []) :
    (s.storeBytes a bs).Agree A (s'.storeBytes a bs) := by
  obtain ⟨hl, e⟩ | ⟨hl, e⟩ := s.storeBytes_cases a bs hb
  · rw [e, s'.storeBytes_ok bs a hl]
    exact ⟨rfl, agree_writeList h a bs⟩
  · rw [e, s'.storeBytes_raised bs a hb hl]
    exact ⟨rfl, agree_writeList h a _⟩

/-- R194: a fetch of rows reads memory. -/
theorem agree_fetchBytes (hmem : Field.mem.same s s') (a n : Nat) :
    (s.fetchBytes a n).Agree A (s'.fetchBytes a n) := by
  obtain ⟨hn, e⟩ | ⟨h0, hn, e⟩ := s.fetchBytes_cases a n
  · rw [e, s'.fetchBytes_ok n a hn]
    exact ⟨List.map_congr_left fun k _ => (hmem (a + k)).symm, h⟩
  · rw [e, s'.fetchBytes_raised n a h0 hn]
    exact ⟨rfl, h⟩

/-- R177, R178: a load of registers reads memory. -/
theorem agree_loadRegs (hmem : Field.mem.same s s') (a : Nat) {rs : List Reg} (hr : rs ≠ []) :
    (s.loadRegs a rs).Agree A (s'.loadRegs a rs) := by
  obtain ⟨hl, e⟩ | ⟨hl, e⟩ := s.loadRegs_cases a rs hr
  · rw [e, s'.loadRegs_ok rs a hl]
    exact ⟨rfl, agree_loaded hmem a rs h⟩
  · rw [e, s'.loadRegs_raised rs a hr hl]
    exact ⟨rfl, agree_loaded hmem a _ h⟩

end

/-- An instruction gives agreeing outcomes on two states that agree, its r columns included. -/
theorem exec_agree {i : Instr} {A : Field → Prop} {s s' : State} (hA : ∀ f ∈ i.reads, A f) (h : Agree A s s') :
    AgreeNext A (exec i s) (exec i s') := by
  have hr : ∀ f ∈ i.reads, f.same s s' := fun f hf => h f (hA f hf)
  cases i <;> simp only [Instr.reads, List.forall_mem_cons, List.not_mem_nil, false_imp_iff, implies_true,
    and_true, Field.same] at hr
  case cls => exact agreeNext_of_agree (agree_setFb h _)
  case jp => exact agreeNext_of_agree (agree_setPc h _)
  case ldVxKk => exact agreeNext_of_agree (agree_setReg h _ _)
  case ldINnn => exact agreeNext_of_agree (agree_setI h _)
  case ldVxK => exact agreeNext_of_agree (agree_setMode h _)
  case unmatched => exact agreeNext_of_agree h
  case addVxKk | ldVxVy | orVxVy | andVxVy | xorVxVy | ldVxDt =>
    exact agreeNext_of_agree (by simp only [hr]; exact agree_setReg h _ _)
  case addVxVy | subVxVy | shrVx | subnVxVy | shlVx =>
    exact agreeNext_of_agree (by simp only [hr]; exact agree_setFlagThenReg h _ _ _)
  case seVxKk | sneVxKk | seVxVy | sneVxVy =>
    exact agreeNext_of_agree (by simp only [hr]; exact agree_skipIf h _)
  case jpV0Nnn => exact agreeNext_of_agree (by simp only [hr]; exact agree_setPc h _)
  case addIVx | ldFVx => exact agreeNext_of_agree (by simp only [hr]; exact agree_setI h _)
  case ldDtVx => exact agreeNext_of_agree (by simp only [hr]; exact agree_setDt h _)
  case ldStVx => exact agreeNext_of_agree (by simp only [hr]; exact agree_setSt h _)
  case rndVxKk => exact agreeNext_of_agree (by simp only [hr]; exact agree_setReg (agree_countDraw h) _ _)
  case ret =>
    obtain ⟨hsp, hstk⟩ := hr
    exact (agree_pop h hsp hstk).andThen fun _ _ _ hu => agreeNext_of_agree (agree_setPc hu _)
  case call =>
    obtain ⟨hpc, hsp⟩ := hr
    exact Result.Agree.andThen (by rw [hpc]; exact agree_push h hsp _)
      fun _ _ _ hu => agreeNext_of_agree (agree_setPc hu _)
  case drw =>
    obtain ⟨hx, hy, hi, hmem, -⟩ := hr
    have hfb : A .fb := hA _ (by simp [Instr.reads])
    exact Result.Agree.andThen (by simp only [State.base_eq, hi]; exact agree_fetchBytes h hmem _ _)
      fun rows _ _ hu => agreeNext_of_agree (by rw [hx, hy]; exact agree_drawAt hu (hu _ hfb) _ _ rows)
  case skpVx | sknpVx =>
    obtain ⟨hx, hkey⟩ := hr
    exact Result.Agree.andThen (by rw [hx]; exact agree_keyRead h hkey _)
      fun _ _ _ hu => agreeNext_of_agree (agree_skipIf hu _)
  case ldBVx =>
    obtain ⟨hx, hi⟩ := hr
    exact Result.Agree.andThen
      (by simp only [State.base_eq, hi, hx]; exact agree_storeBytes h _ (bcdDigits_ne_nil _))
      fun _ _ _ hu => agreeNext_of_agree hu
  case ldMemVx x =>
    obtain ⟨hi, hregs⟩ := hr
    have hbytes : (regsUpTo x).map s'.reg = (regsUpTo x).map s.reg :=
      List.map_congr_left fun r hm => hregs _ (List.mem_map_of_mem hm)
    exact Result.Agree.andThen
      (by simp only [State.base_eq, hi, hbytes]; exact agree_storeBytes h _ (map_regsUpTo_ne_nil x _))
      fun _ _ _ hu => agreeNext_of_agree hu
  case ldVxMem x =>
    obtain ⟨hi, hmem⟩ := hr
    exact Result.Agree.andThen
      (by simp only [State.base_eq, hi]; exact agree_loadRegs h hmem _ (regsUpTo_ne_nil x))
      fun _ _ _ hu => agreeNext_of_agree hu

/-- Settles O15: every operation an instruction is made of gives like results on states that agree on what it reads. -/
theorem instructionsReadOnlyTheMatrix : Obligations.InstructionsReadOnlyTheMatrix := by
  intro i A s s' t hA h e
  exact exec_agree hA h t e

end Sys2Proof.Machine
end

section
/-! Main memory (20_memory.md): the access primitives, and that code just stored is what the next step fetches (R62). -/

namespace Sys2Proof.Machine

/-- Settles O19: a read leaves the state alone, and a write is one update of memory, of the byte it names alone. -/
theorem byteMemoryPrimitives : Obligations.ByteMemoryPrimitives := by
  intro s a b
  constructor
  · intro ha
    refine ⟨s.memRead_ok ha, _, s.memWrite_ok ha b, ?_, ?_, onlyChanges_setMem s _⟩
    · rw [State.memRead_ok _ ha, State.setMem_mem, Memory.read_write_same]
    · intro a' hne
      exact Memory.read_write_other s.mem b hne
  · intro ha
    exact ⟨s.memRead_raised ha, s.memWrite_raised ha b⟩

/-- Settles O20: the value is a concatenation, so its first byte counts 256 times. -/
theorem shortMemoryRead : Obligations.ShortMemoryRead := by
  intro s a
  constructor
  · intro ha
    exact ⟨_, s.memRead2_ok ha, toNat_append_eq _ _⟩
  · exact s.memRead2_raised

/-- R176: after the bytes of `V0` to `Vx` are stored from `a` on, address `a + r` reads as the byte of `Vr`. -/
theorem Memory.read_writeList_regsUpTo (m : Memory) (a : Nat) (g : Reg → Byte) {x r : Reg} (h : r ≤ x) :
    (m.writeList a ((regsUpTo x).map g)).read (a + r.val) = g r := by
  have hr : r.val < (regsUpTo x).length := by rw [length_regsUpTo]; exact Nat.lt_succ_of_le h
  rw [Memory.read_writeList, if_pos (by rw [List.length_map]; omega), Nat.add_sub_cancel_left,
    List.getD_eq_getElem _ _ (by rwa [List.length_map]), List.getElem_map, getElem_regsUpTo]

/-- R86: the opcode `Fx55` decodes to the block store. -/
theorem decodeOp_ldMemVx (x : Reg) : decodeOp (opXKK 0xF x 0x55) = .ldMemVx x := by
  simp [decodeOp, decodeF]

/-- A step in `Running` on the bytes `Fx55`, every address of the store in range. -/
theorem step_ldMemVx {s : State} {x : Reg} (hm : s.mode = .running) (hp : s.pc.toNat + 1 < 4096)
    (hop : s.mem.read s.pc.toNat ++ s.mem.read (s.pc.toNat + 1) = opXKK 0xF x 0x55) (hl : s.i.toNat + x.val < 4096) :
    step s = .next ((s.setPc (s.pc + 2)).setMem (s.mem.writeList s.i.toNat ((regsUpTo x).map s.reg))) := by
  rw [step_running s hm hp, hop, decodeOp_ldMemVx]
  obtain ⟨-, e⟩ | ⟨hfault, -⟩ := exec_ldMemVx_cases x (s.setPc (s.pc + 2))
  · exact e
  · exact absurd hl (Nat.not_lt.mpr hfault)

/-- R103: a step in `Running` runs the opcode made of the two bytes at `PC`. -/
theorem step_of_fetched {s : State} {hi lo : Byte} (hm : s.mode = .running) (hp : s.pc.toNat + 1 < 4096)
    (hhi : s.mem.read s.pc.toNat = hi) (hlo : s.mem.read (s.pc.toNat + 1) = lo) :
    step s = exec (decodeOp (hi ++ lo)) (s.setPc (s.pc + 2)) := by
  rw [step_running s hm hp, hhi, hlo]

/-- Settles O44: the store leaves `PC` at `I`, so the two bytes the next step fetches are those of `V0` and `V1`. -/
theorem storedCodeIsFetchedAtOnce : Obligations.StoredCodeIsFetchedAtOnce := by
  intro s x hm hop hx hi hl
  have hpc : (s.pc + 2).toNat = s.i.toNat := by rw [hi]; exact toNat_add_two (by omega)
  have hstored : ∀ r ≤ x, (s.mem.writeList s.i.toNat ((regsUpTo x).map s.reg)).read ((s.pc + 2).toNat + r.val) =
      s.reg r := fun r hr => by rw [hpc]; exact Memory.read_writeList_regsUpTo _ _ _ hr
  have hfit : (s.pc + 2).toNat + 1 < 4096 := by omega
  exact ⟨_, step_ldMemVx hm (by omega) hop hl, step_of_fetched hm hfit (hstored 0 (Fin.zero_le x)) (hstored 1 hx)⟩

end Sys2Proof.Machine
end

section
/-! The encoding (30_encoding.md): the decoder against the encoder (R82) and the opcode map (R84, R86 to R88). -/

namespace Sys2Proof

/-! ## No bit of an opcode is lost -/

theorem encode_decode0 (op : Word) : encode (decode0 op) = op := by
  unfold decode0
  split_ifs with hcls hret
  · exact hcls.symm
  · exact hret.symm
  · rfl

theorem encode_decode5 {op : Word} (h : fieldI op = 0x5) : encode (decode5 op) = op := by
  have e := opXYN_fields op 0x5 h
  unfold decode5
  split_ifs with hn
  · rwa [hn] at e
  · rfl

theorem encode_decode8 {op : Word} (h : fieldI op = 0x8) : encode (decode8 op) = op := by
  have e := opXYN_fields op 0x8 h
  unfold decode8
  split
  case h_10 => rfl
  all_goals
    rename_i hn
    rwa [hn] at e

theorem encode_decode9 {op : Word} (h : fieldI op = 0x9) : encode (decode9 op) = op := by
  have e := opXYN_fields op 0x9 h
  unfold decode9
  split_ifs with hn
  · rwa [hn] at e
  · rfl

theorem encode_decodeE {op : Word} (h : fieldI op = 0xE) : encode (decodeE op) = op := by
  have e := opXKK_fields op 0xE h
  unfold decodeE
  split_ifs with hskp hsknp
  · rwa [hskp] at e
  · rwa [hsknp] at e
  · rfl

theorem encode_decodeF {op : Word} (h : fieldI op = 0xF) : encode (decodeF op) = op := by
  have e := opXKK_fields op 0xF h
  unfold decodeF
  split_ifs
  case neg => rfl
  all_goals
    rename_i hkk
    rwa [hkk] at e

/-- R82: the fields that the decoder reads, put back in their format, are the opcode. -/
theorem encode_decodeOp (op : Word) : encode (decodeOp op) = op := by
  unfold decodeOp
  split
  case h_1 => exact encode_decode0 op
  case h_2 h | h_3 h | h_11 h | h_12 h => exact opNNN_fields op _ h
  case h_4 h | h_5 h | h_7 h | h_8 h | h_13 h => exact opXKK_fields op _ h
  case h_6 h => exact encode_decode5 h
  case h_9 h => exact encode_decode8 h
  case h_10 h => exact encode_decode9 h
  case h_14 h => exact opXYN_fields op _ h
  case h_15 h => exact encode_decodeE h
  case h_16 =>
    -- the catch-all arm of `decodeOp`: 0xF is the one primary opcode left
    have h : fieldI op = 0xF := by grind
    exact encode_decodeF h

/-! ## The rows of the map -/

/-- R86: the rows stand in the order of their numbers, and the no-op's number is none of theirs. -/
theorem opcodeMap_num : ∀ r ∈ opcodeMap, opcodeMap[r.num - 1]? = some r ∧ r.num ≠ 35 := by decide

/-- R84, R86: every mask covers the digits the decoder tests under the row's primary opcode. -/
theorem opcodeMap_mask : ∀ r ∈ opcodeMap, fieldI r.mask = 0xF ∧ (fieldI r.value = 0x0 → r.mask = 0xFFFF) ∧
    (fieldI r.value ∈ [0x5, 0x8, 0x9] → fieldN r.mask = 0xF) ∧
    (fieldI r.value ∈ [0xE, 0xF] → fieldKK r.mask = 0xFF) := by decide

/-- R86: each row's match, as an opcode, is decoded to the row's instruction. -/
theorem rowNumber_decodeOp_value : ∀ r ∈ opcodeMap, (decodeOp r.value).rowNumber = r.num := by decide

section
variable (op : Word) {m : Word}

theorem fieldI_and (h : fieldI m = 0xF) : fieldI (op &&& m) = fieldI op := by
  have h' : m.extractLsb' 12 4 = BitVec.allOnes 4 := congrArg BitVec.ofFin h
  rw [fieldI, BitVec.extractLsb'_and, h', BitVec.and_allOnes, fieldI]

theorem fieldN_and (h : fieldN m = 0xF) : fieldN (op &&& m) = fieldN op := by
  have h' : m.extractLsb' 0 4 = BitVec.allOnes 4 := congrArg BitVec.ofFin h
  rw [fieldN, BitVec.extractLsb'_and, h', BitVec.and_allOnes, fieldN]

theorem fieldKK_and (h : fieldKK m = 0xFF) : fieldKK (op &&& m) = fieldKK op := by
  have h' : m.extractLsb' 0 8 = BitVec.allOnes 8 := h
  rw [fieldKK, BitVec.extractLsb'_and, h', BitVec.and_allOnes, fieldKK]

end

/-- R84: which row an opcode is decoded to depends only on the digits tested under its primary opcode. -/
theorem rowNumber_decodeOp_congr {op op' : Word} (hI : fieldI op = fieldI op') (h0 : fieldI op' = 0x0 → op = op')
    (hN : fieldI op' ∈ [0x5, 0x8, 0x9] → fieldN op = fieldN op')
    (hKK : fieldI op' ∈ [0xE, 0xF] → fieldKK op = fieldKK op') :
    (decodeOp op).rowNumber = (decodeOp op').rowNumber := by
  rw [decodeOp, decodeOp, hI]
  split
  case h_1 h => rw [h0 h]
  case h_6 h => simp only [decode5, hN (by simp [h]), apply_ite Instr.rowNumber]; rfl
  case h_9 h => rw [decode8, decode8, hN (by simp [h])]; split <;> rfl
  case h_10 h => simp only [decode9, hN (by simp [h]), apply_ite Instr.rowNumber]; rfl
  case h_15 h => simp only [decodeE, hKK (by simp [h]), apply_ite Instr.rowNumber]; rfl
  case h_16 =>
    have h : fieldI op' = 0xF := by grind
    simp only [decodeF, hKK (by simp [h]), apply_ite Instr.rowNumber]; rfl
  all_goals rfl

/-- R84: an opcode that a row accepts has the tested digits of the row's match. -/
theorem rowNumber_decodeOp_of_accepts {op : Word} {r : Row} (hr : r ∈ opcodeMap) (h : op &&& r.mask = r.value) :
    (decodeOp op).rowNumber = r.num := by
  obtain ⟨hI, h0, hN, hKK⟩ := opcodeMap_mask r hr
  rw [← rowNumber_decodeOp_value r hr]
  apply rowNumber_decodeOp_congr
  · rw [← h, fieldI_and op hI]
  · intro hv
    rw [← h, h0 hv, and_FFFF]
  · intro hv
    rw [← h, fieldN_and op (hN hv)]
  · intro hv
    rw [← h, fieldKK_and op (hKK hv)]

/-- R82, R86: the encoding of an instruction is accepted by the instruction's row. -/
theorem encode_and_mask {i : Instr} (h : i.rowNumber ≠ 35) :
    ∃ r, opcodeMap[i.rowNumber - 1]? = some r ∧ encode i &&& r.mask = r.value := by
  cases i with
  | cls | ret => exact ⟨_, rfl, rfl⟩
  | jp | call | ldINnn | jpV0Nnn => exact ⟨_, rfl, (accepts_F000 _ _ _ rfl).mpr (fieldI_opNNN _ _)⟩
  | seVxKk | sneVxKk | ldVxKk | addVxKk | rndVxKk =>
    exact ⟨_, rfl, (accepts_F000 _ _ _ rfl).mpr (fieldI_opXKK _ _ _)⟩
  | drw => exact ⟨_, rfl, (accepts_F000 _ _ _ rfl).mpr (fieldI_opXYN _ _ _ _)⟩
  | seVxVy | sneVxVy | ldVxVy | orVxVy | andVxVy | xorVxVy | addVxVy | subVxVy | shrVx | subnVxVy | shlVx =>
    exact ⟨_, rfl, (accepts_F00F _ _ _ _ rfl).mpr ⟨fieldI_opXYN _ _ _ _, fieldN_opXYN _ _ _ _⟩⟩
  | skpVx | sknpVx | ldVxDt | ldVxK | ldDtVx | ldStVx | addIVx | ldFVx | ldBVx | ldMemVx | ldVxMem =>
    exact ⟨_, rfl, (accepts_F0FF _ _ _ _ rfl).mpr ⟨fieldI_opXKK _ _ _, fieldKK_opXKK _ _ _⟩⟩
  | unmatched op => exact absurd rfl h

/-- Settles O6: a row's instruction is encoded as an opcode the row accepts, and an accepted opcode is decoded to it. -/
theorem decodeFollowsOpcodeMap : Obligations.DecodeFollowsOpcodeMap := by
  intro op r hr
  refine ⟨fun h => ?_, rowNumber_decodeOp_of_accepts hr⟩
  obtain ⟨hget, hne⟩ := opcodeMap_num r hr
  obtain ⟨r', hget', e⟩ := encode_and_mask (h ▸ hne)
  obtain rfl : r = r' := Option.some.inj (hget.symm.trans (h ▸ hget'))
  rwa [encode_decodeOp] at e

/-! ## The no-op -/

theorem Instr.eq_unmatched_encode {i : Instr} (h : i.rowNumber = 35) : i = .unmatched (encode i) := by
  cases i with
  | unmatched op => rfl
  | _ => cases h

theorem decodeOp_eq_unmatched_of_rowNumber {op : Word} (h : (decodeOp op).rowNumber = 35) :
    decodeOp op = .unmatched op := by
  simpa only [encode_decodeOp] using Instr.eq_unmatched_encode h

theorem Instr.wellFormed_of_rowNumber_ne {i : Instr} (h : i.rowNumber ≠ 35) : i.wellFormed = true := by
  cases i with
  | unmatched op => exact absurd rfl h
  | _ => rfl

theorem unmatchedOp_iff (op : Word) : unmatchedOp op = true ↔ ∀ r ∈ opcodeMap, op &&& r.mask ≠ r.value := by
  simp [unmatchedOp, Row.accepts]

/-- R87: the decoder gives the no-op exactly on the opcodes that no row accepts. -/
theorem decodeOp_eq_unmatched_iff (op : Word) : decodeOp op = .unmatched op ↔ unmatchedOp op = true := by
  rw [unmatchedOp_iff]
  constructor
  · intro h r hr ha
    have hnum := rowNumber_decodeOp_of_accepts hr ha
    rw [h] at hnum
    exact (opcodeMap_num r hr).2 hnum.symm
  · intro h
    apply decodeOp_eq_unmatched_of_rowNumber
    by_contra hne
    obtain ⟨r, hget, e⟩ := encode_and_mask hne
    rw [encode_decodeOp] at e
    exact h r (List.mem_of_getElem? hget) e

/-! ## Both round trips -/

/-- R82: each field the decoder reads from an encoding is what the encoder put there. -/
theorem decodeOp_encode {i : Instr} (h : i.wellFormed = true) : decodeOp (encode i) = i := by
  cases i with
  | cls | ret => rfl
  | jp | call | ldINnn | jpV0Nnn =>
    simp only [encode, decodeOp, fieldI_opNNN, fieldNNN_opNNN]
    rfl
  | seVxKk | sneVxKk | ldVxKk | addVxKk | rndVxKk =>
    simp only [encode, decodeOp, fieldI_opXKK, fieldX_opXKK, fieldKK_opXKK]
    rfl
  | drw =>
    simp only [encode, decodeOp, fieldI_opXYN, fieldX_opXYN, fieldY_opXYN, fieldN_opXYN]
    rfl
  | seVxVy | sneVxVy | ldVxVy | orVxVy | andVxVy | xorVxVy | addVxVy | subVxVy | shrVx | subnVxVy | shlVx =>
    simp only [encode, decodeOp, decode5, decode8, decode9, fieldI_opXYN, fieldX_opXYN, fieldY_opXYN, fieldN_opXYN]
    rfl
  | skpVx | sknpVx | ldVxDt | ldVxK | ldDtVx | ldStVx | addIVx | ldFVx | ldBVx | ldMemVx | ldVxMem =>
    simp only [encode, decodeOp, decodeE, decodeF, fieldI_opXKK, fieldX_opXKK, fieldKK_opXKK]
    rfl
  | unmatched op => exact (decodeOp_eq_unmatched_iff op).mpr h

/-- R54: two bytes, high byte first, are decoded as the opcode they make. -/
theorem decode_opBytes_append (op : Word) (rest : List Byte) :
    decode (opBytes op ++ rest) = .ok (decodeOp op, rest) := by
  simp only [opBytes, List.cons_append, List.nil_append, decode, opBytes_append]

/-- Settles O4: the two bytes make the encoding again, whose fields are the operands. -/
theorem decodeEncodeRoundTrip : Obligations.DecodeEncodeRoundTrip := by
  intro i rest h
  rw [encodeBytes, decode_opBytes_append, decodeOp_encode h]

/-- Settles O5: the fields lose no bit, and an opcode decoded to the no-op is one that no row accepts. -/
theorem encodeDecodeRoundTrip : Obligations.EncodeDecodeRoundTrip := by
  intro op
  refine ⟨?_, encode_decodeOp op⟩
  by_cases h : (decodeOp op).rowNumber = 35
  · have e := decodeOp_eq_unmatched_of_rowNumber h
    rw [e]
    exact (decodeOp_eq_unmatched_iff op).mp e
  · exact Instr.wellFormed_of_rowNumber_ne h

/-- Settles O3: the words are closed terms that the decoder evaluates. -/
theorem specWordsDecode : Obligations.SpecWordsDecode := by
  unfold Obligations.SpecWordsDecode
  decide

/-! ## The no-op's opcodes (R88), by primary opcode -/

theorem decode0_eq_unmatched_iff {op : Word} (h : fieldI op = 0x0) :
    decode0 op = .unmatched op ↔ fieldNNN op ≠ 0x0E0 ∧ fieldNNN op ≠ 0x0EE := by
  have e : ∀ nnn : Addr, fieldNNN op = nnn ↔ op = opNNN 0x0 nnn := fun nnn =>
    ⟨fun hn => hn ▸ (opNNN_fields op 0x0 h).symm, fun hop => hop ▸ fieldNNN_opNNN 0x0 nnn⟩
  rw [ne_eq, ne_eq, e, e]
  unfold decode0
  split_ifs <;> simp_all [opNNN]

theorem decode5_eq_unmatched_iff (op : Word) : decode5 op = .unmatched op ↔ fieldN op ≠ 0 := by
  unfold decode5
  split_ifs <;> simp_all

theorem decode8_eq_unmatched_iff (op : Word) :
    decode8 op = .unmatched op ↔ 8 ≤ (fieldN op).val ∧ (fieldN op).val ≤ 13 ∨ (fieldN op).val = 15 := by
  unfold decode8
  generalize fieldN op = n
  fin_cases n <;> simp

theorem decode9_eq_unmatched_iff (op : Word) : decode9 op = .unmatched op ↔ fieldN op ≠ 0 := by
  unfold decode9
  split_ifs <;> simp_all

theorem decodeE_eq_unmatched_iff (op : Word) :
    decodeE op = .unmatched op ↔ fieldKK op ≠ 0x9E ∧ fieldKK op ≠ 0xA1 := by
  unfold decodeE
  split_ifs <;> simp_all

theorem decodeF_eq_unmatched_iff (op : Word) : decodeF op = .unmatched op ↔
    fieldKK op ∉ [0x07, 0x0A, 0x15, 0x18, 0x1E, 0x29, 0x33, 0x55, 0x65] := by
  unfold decodeF
  split_ifs <;> simp_all

/-- Settles O7: under each primary opcode one of the six groups is left, or none. -/
theorem unmatchedOpcodesExactly : Obligations.UnmatchedOpcodesExactly := by
  intro op
  unfold decodeOp
  split
  case h_1 h => simp [h, decode0_eq_unmatched_iff h]
  case h_6 h => simp [h, decode5_eq_unmatched_iff]
  case h_9 h => simp [h, decode8_eq_unmatched_iff]
  case h_10 h => simp [h, decode9_eq_unmatched_iff]
  case h_15 h => simp [h, decodeE_eq_unmatched_iff]
  case h_16 =>
    have h : fieldI op = 0xF := by grind
    simp [h, decodeF_eq_unmatched_iff]
  all_goals
    rename_i h
    simp [h]

end Sys2Proof
end

section
/-! A step on any opcode (R87, R89): the no-op, and that no opcode stops the machine. -/

namespace Sys2Proof.Machine

/-- Settles O8: such an opcode is decoded to the no-op, whose meaning leaves the advanced state alone. -/
theorem unmatchedOpcodeIsNoOp : Obligations.UnmatchedOpcodeIsNoOp := by
  refine ⟨fun s hm hp h => ?_, fun op s => rfl, fun s => s.memRead2_raised⟩
  rw [step_running s hm hp, (decodeOp_eq_unmatched_iff _).mpr ((unmatchedOp_iff _).mpr h)]
  rfl

/-- R230, R233: with `SP` below the capacity every instruction answers a next state, a latched fault included. -/
theorem exec_answers {s : State} (hsp : s.sp.toNat < Config.stackCapacity) (i : Instr) :
    ∃ t, exec i s = .next t := by
  cases i with
  | ret =>
    obtain ⟨-, e⟩ | ⟨-, -, e⟩ | ⟨habsent, -⟩ := exec_ret_cases s
    · exact ⟨_, e⟩
    · exact ⟨_, e⟩
    · exact absurd hsp (Nat.not_lt.mpr habsent)
  | call nnn => obtain ⟨-, e⟩ | ⟨-, e⟩ := exec_call_cases nnn s <;> exact ⟨_, e⟩
  | drw x y n => obtain ⟨-, e⟩ | ⟨-, -, e⟩ := exec_drw_cases x y n s <;> exact ⟨_, e⟩
  | skpVx x => obtain ⟨_, e⟩ | ⟨-, e⟩ := exec_skpVx_cases x s <;> exact ⟨_, e⟩
  | sknpVx x => obtain ⟨_, e⟩ | ⟨-, e⟩ := exec_sknpVx_cases x s <;> exact ⟨_, e⟩
  | ldBVx x => obtain ⟨-, e⟩ | ⟨-, e⟩ := exec_ldBVx_cases x s <;> exact ⟨_, e⟩
  | ldMemVx x => obtain ⟨-, e⟩ | ⟨-, e⟩ := exec_ldMemVx_cases x s <;> exact ⟨_, e⟩
  | ldVxMem x => obtain ⟨-, e⟩ | ⟨-, e⟩ := exec_ldVxMem_cases x s <;> exact ⟨_, e⟩
  | _ => exact ⟨_, rfl⟩

/-- Settles O13: the one stop needs an absent slot, which the invariant excludes in `Running`. -/
theorem stepAlwaysAnswers : Obligations.StepAlwaysAnswers := by
  intro s h
  by_cases hm : s.mode = .running
  · by_cases hp : s.pc.toNat + 1 < 4096
    · rw [step_running s hm hp]
      exact exec_answers (s := s.setPc (s.pc + 2)) (h.sp_lt hm) _
    · exact ⟨_, step_fetch_fault s hm (Nat.not_lt.mp hp)⟩
  · exact ⟨s, step_idle s hm⟩

end Sys2Proof.Machine
end

section
/-! The step cycle by mode and `PC` (R100 to R104): the instruction at `PC`, the idle step, the fetch fault. -/

namespace Sys2Proof.Machine

/-- R54, R104: an instruction that two bytes decode to is that of the opcode they make. -/
theorem decodeOp_of_decode_pair {hi lo : Byte} {i : Instr} {rest : List Byte}
    (h : decode [hi, lo] = .ok (i, rest)) : decodeOp (hi ++ lo) = i :=
  (Prod.mk.inj (Except.ok.inj h)).1

/-- Settles O1: the instruction is that of the opcode at `PC`, which the decoder makes well-formed and the step runs. -/
theorem stepRunsDecodedInstruction : Obligations.StepRunsDecodedInstruction := by
  intro s i hm hp hdecode
  obtain rfl := decodeOp_of_decode_pair hdecode
  exact ⟨(encodeDecodeRoundTrip _).1, step_running s hm hp⟩

/-- Settles O2: the fetch needs the bytes at `PC` and `PC + 1`, so from 4095 on it faults before `PC` is advanced. -/
theorem stepIdleOrFetchFault : Obligations.StepIdleOrFetchFault := by
  intro s
  constructor
  · exact step_idle s
  · intro hm hp
    exact ⟨_, step_fetch_fault s hm (Nat.succ_le_succ hp), rfl, onlyChanges_setMode s _⟩

end Sys2Proof.Machine
end

section
/-! Control transfer (41_control_flow.md): the stack primitives, calls and returns, jumps and skips. -/

namespace Sys2Proof.Machine

/-! ## The stack (R121, R122) -/

theorem ne_zero_of_toNat_pos {b : Byte} (h : 0 < b.toNat) : b ≠ 0 := by
  rintro rfl
  exact absurd h (by decide)

/-- The state a push within the capacity leaves (`push_eq_pushed`). -/
def State.pushed (s : State) (w : Word) : State := (s.setSp (s.sp + 1)).setSlot (s.sp.toNat + 1) w

section
variable {s : State} (h : s.sp.toNat + 1 < Config.stackCapacity) (w : Word)
include h

theorem push_eq_pushed : s.push w = .ok () (s.pushed w) := s.push_ok w h

theorem toNat_sp_pushed : (s.pushed w).sp.toNat = s.sp.toNat + 1 :=
  BitVec.toNat_add_of_lt (h.trans (Nat.lt_succ_of_le stackCapacity_bounds.2))

theorem slot_pushed (k : Nat) : (s.pushed w).slot k = if k = s.sp.toNat + 1 then w else s.slot k :=
  (s.setSp (s.sp + 1)).slot_setSlot (h.trans_le stackCapacity_bounds.2) k w

theorem slot_pushed_top : (s.pushed w).slot (s.sp.toNat + 1) = w := by rw [slot_pushed h, if_pos rfl]

theorem slot_pushed_other {k : Nat} (hk : k ≠ s.sp.toNat + 1) : (s.pushed w).slot k = s.slot k := by
  rw [slot_pushed h, if_neg hk]

/-- R121, R122: a pop gives what was pushed last, and `SP` is as before the push. -/
theorem pop_pushed : (s.pushed w).pop = .ok w ((s.pushed w).setSp s.sp) := by
  have hsp := toNat_sp_pushed h w
  have hne : (s.pushed w).sp ≠ 0 := ne_zero_of_toNat_pos (by omega)
  have hback : (s.pushed w).sp - 1 = s.sp := BitVec.add_sub_cancel s.sp 1
  rw [State.pop_ok _ hne (hsp ▸ h), hsp, slot_pushed_top h, hback]

end

theorem onlyChanges_pushed (s : State) (w : Word) : OnlyChanges [.sp, .stk] s (s.pushed w) :=
  (onlyChanges_setSp s _).andAlso (onlyChanges_setSlot _ _ _)

/-- R122: `SP` above 0 goes down by one without a wrap. -/
theorem toNat_sub_one {b : Byte} (h : 0 < b.toNat) : (b - 1).toNat = b.toNat - 1 := BitVec.toNat_sub_of_le h

/-- R121: at the last slot the push that overflows leaves `SP` at the capacity. -/
theorem toNat_sp_add_one_of_full {s : State} (h : s.sp.toNat + 1 = Config.stackCapacity) :
    (s.sp + 1).toNat = Config.stackCapacity := by
  have hcap := stackCapacity_bounds
  rw [← h]
  exact BitVec.toNat_add_of_lt (show s.sp.toNat + 1 < 256 by omega)

/-- Settles O21: each of the two operations has one end under the condition of each clause. -/
theorem stackPrimitives : Obligations.StackPrimitives := by
  intro s w hsp
  refine ⟨fun h => ?push, fun h => ?overflow, fun h => ?underflow, fun h => ?pop⟩
  case push =>
    refine ⟨_, push_eq_pushed h w, toNat_sp_pushed h w, ?_, ?_, onlyChanges_pushed s w,
      _, pop_pushed h w, rfl, onlyChanges_setSp _ _⟩
    · rw [toNat_sp_pushed h, slot_pushed_top h]
    · rw [toNat_sp_pushed h]
      exact fun k => slot_pushed_other h w
  case overflow =>
    exact ⟨_, s.push_raised w h.ge, toNat_sp_add_one_of_full h, onlyChanges_setSp s _⟩
  case underflow =>
    exact s.pop_raised (BitVec.eq_of_toNat_eq h)
  case pop =>
    exact ⟨_, s.pop_ok (ne_zero_of_toNat_pos h) hsp, toNat_sub_one h, onlyChanges_setSp s _⟩

/-! ## Calls and returns (R123, R125) -/

theorem exec_call_pushes (nnn : Addr) {s : State} (h : s.sp.toNat + 1 < Config.stackCapacity) :
    exec (.call nnn) s = .next ((s.pushed s.pc).setPc (zextAddr nnn)) := by
  obtain ⟨-, e⟩ | ⟨hfull, -⟩ := exec_call_cases nnn s
  · exact e
  · omega

theorem exec_call_overflows (nnn : Addr) {s : State} (h : Config.stackCapacity ≤ s.sp.toNat + 1) :
    exec (.call nnn) s = .next ((s.setSp (s.sp + 1)).setMode (.faulted .stackOverflow)) := by
  obtain ⟨hroom, -⟩ | ⟨-, e⟩ := exec_call_cases nnn s
  · omega
  · exact e

/-- R121, R233: the overflow of a call keeps `PC` and the stack. -/
theorem onlyChanges_overflow (s : State) :
    OnlyChanges [.sp, .mode] s ((s.setSp (s.sp + 1)).setMode (.faulted .stackOverflow)) :=
  (onlyChanges_setSp s _).andAlso (onlyChanges_setMode _ _)

/-- Settles O23: the call is the push of `PC` and the jump, or the push's overflow. -/
theorem callPushesAndJumps : Obligations.CallPushesAndJumps := by
  intro nnn s
  constructor
  · intro h
    exact ⟨_, exec_call_pushes nnn h, toNat_zextAddr nnn, toNat_sp_pushed h s.pc, slot_pushed_top h s.pc,
      fun k => slot_pushed_other h s.pc,
      ((onlyChanges_pushed s s.pc).andAlso (onlyChanges_setPc _ _)).mono (by simp)⟩
  · intro h
    exact ⟨_, exec_call_overflows nnn h.ge, rfl, toNat_sp_add_one_of_full h, onlyChanges_overflow s⟩

/-- Settles O59: above the last slot the push still overflows, and the 8-bit `SP` goes up modulo 256. -/
theorem callAboveCapacityOverflows : Obligations.CallAboveCapacityOverflows := by
  intro nnn s h
  exact ⟨_, exec_call_overflows nnn (Nat.le_succ_of_le h), rfl, BitVec.toNat_add s.sp 1, onlyChanges_overflow s⟩

theorem exec_ret_returns {s : State} (h0 : 0 < s.sp.toNat) (h : s.sp.toNat < Config.stackCapacity) :
    exec .ret s = .next ((s.setSp (s.sp - 1)).setPc (s.slot s.sp.toNat)) := by
  rw [exec, execRet, s.pop_ok (ne_zero_of_toNat_pos h0) h, Result.andThen_ok]

theorem exec_ret_underflows {s : State} (h : s.sp = 0) :
    exec .ret s = .next (s.setMode (.faulted .stackUnderflow)) := by
  rw [exec, execRet, s.pop_raised h, Result.andThen_raised]

/-- R123: a return to what was pushed last leaves, besides `PC`, only the slot of that push changed. -/
theorem exec_ret_pushed {s : State} (h : s.sp.toNat + 1 < Config.stackCapacity) (w pc : Word) :
    exec .ret ((s.pushed w).setPc pc) = .next ((s.setSlot (s.sp.toNat + 1) w).setPc w) := by
  have hpop : ((s.pushed w).setPc pc).pop = _ := pop_pushed (s := s.setPc pc) h w
  rw [exec, execRet, hpop, Result.andThen_ok]
  rfl

/-- Settles O24: the return is a pop into `PC`, or the pop's underflow. -/
theorem returnPopsPc : Obligations.ReturnPopsPc := by
  intro s
  constructor
  · intro hpos hlt
    exact ⟨_, exec_ret_returns hpos hlt, rfl, toNat_sub_one hpos,
      ((onlyChanges_setSp s _).andAlso (onlyChanges_setPc _ _)).mono (by simp)⟩
  · intro hz
    exact ⟨_, exec_ret_underflows (BitVec.eq_of_toNat_eq hz), rfl, onlyChanges_setMode s _⟩

/-- R82, R103: a step in `Running` whose two bytes are an instruction's encoding runs that instruction. -/
theorem step_of_encoded {i : Instr} {s : State} (hi : i.wellFormed = true) (hm : s.mode = .running)
    (hp : s.pc.toNat + 1 < 4096) (hop : s.mem.read s.pc.toNat ++ s.mem.read (s.pc.toNat + 1) = encode i) :
    step s = exec i (s.setPc (s.pc + 2)) := by
  rw [step_running s hm hp, hop, decodeOp_encode hi]

/-- R103, R123: the step on `00EE` after a push and a jump comes back to the address pushed. -/
theorem step_ret_pushed {s : State} {w pc : Word} (h : s.sp.toNat + 1 < Config.stackCapacity)
    (hm : s.mode = .running) (hp : pc.toNat + 1 < 4096)
    (hop : s.mem.read pc.toNat ++ s.mem.read (pc.toNat + 1) = encode .ret) :
    step ((s.pushed w).setPc pc) = .next ((s.setSlot (s.sp.toNat + 1) w).setPc w) :=
  (step_of_encoded (s := (s.pushed w).setPc pc) rfl hm hp hop).trans (exec_ret_pushed h w _)

/-- Settles O26: the call pushes the advanced `PC` and leaves memory alone, so the next step is the return to it. -/
theorem callThenReturnComesBack : Obligations.CallThenReturnComesBack := by
  intro s nnn hm hp hn hsp hcall hret
  have hstep : step s = .next (((s.setPc (s.pc + 2)).pushed (s.pc + 2)).setPc (zextAddr nnn)) :=
    (step_of_encoded (i := .call nnn) rfl hm hp hcall).trans (exec_call_pushes nnn hsp)
  rw [← toNat_zextAddr] at hn hret
  refine ⟨_, _, hstep, step_ret_pushed (s := s.setPc (s.pc + 2)) hsp hm hn hret, rfl, fun k hk => ?_, ?_⟩
  · exact ((s.setPc (s.pc + 2)).slot_setSlot (hsp.trans_le stackCapacity_bounds.2) k _).trans (if_neg hk)
  · exact (((onlyChanges_setPc s _).andAlso (onlyChanges_setSlot _ _ _)).andAlso (onlyChanges_setPc _ _)).mono
      (by simp)

/-! ## Jumps (R124, R126) -/

/-- Settles O22: the target is the whole of `nnn`, and a jump to its own address undoes the auto-advance. -/
theorem jumpSetsPc : Obligations.JumpSetsPc := by
  intro nnn s
  refine ⟨decodeOp_encode (i := .jp nnn) rfl, ?jumps, ?repeats⟩
  case jumps =>
    refine ⟨_, rfl, toNat_zextAddr nnn, onlyChanges_setPc s _, fun hlast => State.memRead2_raised _ ?_⟩
    rw [State.setPc_pc, toNat_zextAddr, hlast]
  case repeats =>
    intro hm hpc hlt hop
    have htarget : zextAddr nnn = s.pc := BitVec.eq_of_toNat_eq ((toNat_zextAddr nnn).trans hpc.symm)
    have hp : s.pc.toNat + 1 < 4096 := by omega
    rw [← hpc] at hop
    calc step s = .next (s.setPc (zextAddr nnn)) := step_of_encoded (i := .jp nnn) rfl hm hp hop
      _ = .next s := by rw [htarget]; rfl

/-- R126: the sum of an address and a byte needs no mask. -/
theorem toNat_zextAddr_add_zextByte (nnn : Addr) (b : Byte) :
    (zextAddr nnn + zextByte b).toNat = nnn.toNat + b.toNat := by
  rw [BitVec.toNat_add, toNat_zextAddr, toNat_zextByte]
  omega

/-- Settles O27: the sum is at most 4350, so `PC` holds it whole. -/
theorem indexedJumpAddsV0 : Obligations.IndexedJumpAddsV0 := by
  intro nnn s
  have hsum := toNat_zextAddr_add_zextByte nnn (s.reg 0)
  refine ⟨decodeOp_encode (i := .jpV0Nnn nnn) rfl, _, rfl, hsum, onlyChanges_setPc s _, fun hout => ?_⟩
  exact State.memRead2_raised _ (hsum ▸ Nat.succ_le_succ hout)

/-! ## Skips (R127 to R131) -/

/-- R131: an instruction that ends in a skip on `c` skips exactly if what `c` tests holds. -/
theorem skipsIf_of_exec {i : Instr} {s : State} {c : Bool} {p : Prop} (e : exec i s = .next (s.skipIf c))
    (hc : c = true ↔ p) : SkipsIf i s p := by
  refine ⟨_, e, fun h => ?_, fun h => ?_, onlyChanges_skipIf s c⟩
  · rw [hc.mpr h]; rfl
  · rw [Bool.eq_false_iff.mpr (mt hc.mp h)]; rfl

/-- Settles O28: each skip's test is the comparison of `V[x]` with `kk`. -/
theorem skipsOnImmediate : Obligations.SkipsOnImmediate := by
  intro x kk s
  exact ⟨decodeOp_encode (i := .seVxKk x kk) rfl, skipsIf_of_exec rfl beq_iff_eq,
    decodeOp_encode (i := .sneVxKk x kk) rfl, skipsIf_of_exec rfl bne_iff_ne⟩

/-- Settles O29: each skip's test is the comparison of `V[x]` with `V[y]`; with `n` not 0 both are among the no-op's
opcodes. -/
theorem skipsOnRegisters : Obligations.SkipsOnRegisters := by
  intro x y n s
  refine ⟨decodeOp_encode (i := .seVxVy x y) rfl, skipsIf_of_exec rfl beq_iff_eq,
    decodeOp_encode (i := .sneVxVy x y) rfl, skipsIf_of_exec rfl bne_iff_ne, fun hn => ⟨?_, ?_⟩⟩ <;>
    refine (unmatchedOpcodesExactly _).mpr ?_
  · exact .inr (.inl ⟨fieldI_opXYN _ _ _ _, by rwa [fieldN_opXYN]⟩)
  · exact .inr (.inr (.inr (.inl ⟨fieldI_opXYN _ _ _ _, by rwa [fieldN_opXYN]⟩)))

end Sys2Proof.Machine
end

section
/-! Register load, arithmetic, logic, shift and random (42_alu.md): what each instruction leaves in `V[x]` and VF. -/

namespace Sys2Proof.Machine

/-! ## One register (R140 to R145, R160) -/

/-- R160: an instruction that ends in a register write changes that register alone. -/
theorem writesReg_of_exec {i : Instr} {s : State} {x : Reg} {b b' : Byte} (e : exec i s = .next (s.setReg x b))
    (hb : b = b') : WritesReg i s x b' :=
  ⟨_, e, hb ▸ s.reg_setReg_same x b, onlyChanges_setReg s x b⟩

theorem add_eq_ofNat_mod (a b : Byte) : a + b = BitVec.ofNat 8 ((a.toNat + b.toNat) % 256) :=
  BitVec.eq_of_toNat_eq (by simp)

/-- Settles O30: after the load, the addition finds `kk` in `V[x]`, and `kk + kk` is `2 * kk`. -/
theorem loadAndAddImmediate : Obligations.LoadAndAddImmediate := by
  intro x kk s
  refine ⟨decodeOp_encode (i := .ldVxKk x kk) rfl, writesReg_of_exec rfl rfl,
    decodeOp_encode (i := .addVxKk x kk) rfl, writesReg_of_exec rfl (add_eq_ofNat_mod _ kk), fun t e => ?_⟩
  obtain rfl := Host.Outcome.next.inj e
  refine writesReg_of_exec rfl ?_
  rw [State.reg_setReg_same, add_eq_ofNat_mod, Nat.two_mul]

/-- Settles O31: each result is the word operation on the old registers, which acts bit by bit. -/
theorem copyAndLogic : Obligations.CopyAndLogic := by
  intro x y s
  exact ⟨decodeOp_encode (i := .ldVxVy x y) rfl, writesReg_of_exec rfl rfl,
    decodeOp_encode (i := .orVxVy x y) rfl, ⟨_, writesReg_of_exec rfl rfl, fun _ => BitVec.getLsbD_or⟩,
    decodeOp_encode (i := .andVxVy x y) rfl, ⟨_, writesReg_of_exec rfl rfl, fun _ => BitVec.getLsbD_and⟩,
    decodeOp_encode (i := .xorVxVy x y) rfl, ⟨_, writesReg_of_exec rfl rfl, fun _ => BitVec.getLsbD_xor⟩⟩

/-! ## A result and the flag (R146, R149 to R153) -/

/-- R146: an instruction that ends in a flag write and then a register write leaves both, the flag unless `x` is VF,
and changes nothing else. -/
theorem writesFlagAndReg_of_exec {i : Instr} {s : State} {x : Reg} {f b : Byte} {flag n : Nat}
    (e : exec i s = .next (s.setFlagThenReg x f b)) (hf : f.toNat = flag) (hb : b.toNat = n) :
    WritesFlagAndReg i s x flag n := by
  refine ⟨_, e, ?_, fun hx => ?_, onlyChanges_setFlagThenReg s x f b⟩
  · rw [State.reg_setFlagThenReg_result, hb]
  · rw [s.reg_setFlagThenReg_flag hx, hf]

/-- Settles O32: the flag is the carry of the old registers, the result their sum modulo 256. -/
theorem addWithCarry : Obligations.AddWithCarry := by
  intro x y s
  exact ⟨decodeOp_encode (i := .addVxVy x y) rfl,
    writesFlagAndReg_of_exec rfl (toNat_carryFlag _ _) (BitVec.toNat_add _ _)⟩

theorem toNat_sub_eq_mod (a b : Byte) : (a - b).toNat = (a.toNat + 256 - b.toNat) % 256 := by bv_omega

/-- Settles O33: both are the strict comparison and the difference modulo 256, with the operands exchanged. -/
theorem subtractBothWays : Obligations.SubtractBothWays := by
  intro x y s
  exact ⟨writesFlagAndReg_of_exec rfl (toNat_greaterFlag _ _) (toNat_sub_eq_mod _ _),
    writesFlagAndReg_of_exec rfl (toNat_greaterFlag _ _) (toNat_sub_eq_mod _ _)⟩

theorem toNat_flagByte_eq_one {n : Nat} (h : n < 2) : (flagByte (decide (n = 1))).toNat = n := by
  interval_cases n <;> rfl

/-- R151: bit 0 of a byte is its remainder by 2. -/
theorem toNat_lowBitFlag (a : Byte) : (lowBitFlag a).toNat = a.toNat % 2 := by
  rw [lowBitFlag, BitVec.getLsbD, Nat.testBit_zero]
  exact toNat_flagByte_eq_one (Nat.mod_lt _ Nat.two_pos)

/-- R153: bit 7 of a byte is its quotient by 128, which is below 2. -/
theorem toNat_highBitFlag (a : Byte) : (highBitFlag a).toNat = a.toNat / 128 := by
  have hlt : a.toNat / 128 < 2 := Nat.div_lt_of_lt_mul a.isLt
  have hbit : a.getLsbD 7 = decide (a.toNat / 128 = 1) := by
    rw [BitVec.getLsbD, Nat.testBit_eq_decide_div_mod_eq, Nat.mod_eq_of_lt hlt]
  rw [highBitFlag, hbit, toNat_flagByte_eq_one hlt]

/-- Settles O34: the bit shifted out is the remainder by 2 or the quotient by 128, the bits kept are the quotient by 2
or the double modulo 256. -/
theorem shiftByOne : Obligations.ShiftByOne := by
  intro x y s
  have hshr : (s.reg x >>> 1).toNat = (s.reg x).toNat / 2 := by
    rw [BitVec.toNat_ushiftRight, Nat.shiftRight_eq_div_pow]
  have hshl : (s.reg x <<< 1).toNat = 2 * (s.reg x).toNat % 256 := by
    rw [BitVec.toNat_shiftLeft, Nat.shiftLeft_eq, Nat.mul_comm]
  exact ⟨writesFlagAndReg_of_exec rfl (toNat_lowBitFlag _) hshr,
    writesFlagAndReg_of_exec rfl (toNat_highBitFlag _) hshl⟩

/-! ## Random (R154, R155) -/

/-- Settles O35: the drawn byte is masked before it is written, and a bit ANDed with 0 is 0. -/
theorem randomUnderMask : Obligations.RandomUnderMask := by
  intro x kk s
  have hreg : (s.countDraw.setReg x (Config.randomByte s.draws &&& kk)).reg x = Config.randomByte s.draws &&& kk :=
    State.reg_setReg_same _ x _
  refine ⟨_, rfl, hreg, fun k hk => ?_, rfl, instructionsWriteOnlyTheMatrix (.rndVxKk x kk) s _ rfl⟩
  rw [hreg, BitVec.getLsbD_and, hk, Bool.and_false]

end Sys2Proof.Machine
end

section
/-! Index register and memory transfer (43_index_memory.md): the address arithmetic, what a store of several bytes
leaves in memory, what a load of several registers leaves in them, and the part of each that lies below 4096 when the
end of memory cuts it short (R178). -/

namespace Sys2Proof.Machine

/-! ## The index register (R170, R171, R174) -/

/-- Settles O36: the zero-extended field is the field itself, which is below 4096. -/
theorem loadIndex : Obligations.LoadIndex := by
  intro nnn s
  have hi : (zextAddr nnn).toNat = nnn.toNat := toNat_zextAddr nnn
  exact ⟨decodeOp_encode (i := .ldINnn nnn) rfl, _, rfl, hi, hi ▸ Nat.le_of_lt_succ nnn.isLt,
    onlyChanges_setI s _⟩

/-- R174: five times a byte fits in 16 bits. -/
theorem toNat_zextByte_mul_five (b : Byte) : (zextByte b * BitVec.ofNat 16 Config.glyphHeight).toNat = b.toNat * 5 := by
  rw [BitVec.toNat_mul, toNat_zextByte, BitVec.toNat_ofNat, Config.glyphHeight]
  omega

/-- Settles O37: the sum wraps at the width of `I`, the product never does. -/
theorem addToIndexAndGlyphAddress : Obligations.AddToIndexAndGlyphAddress := by
  intro x s
  constructor
  · refine ⟨_, rfl, ?_, onlyChanges_setI s _⟩
    rw [State.setI_i, BitVec.toNat_add, toNat_zextByte]
  · exact ⟨_, rfl, toNat_zextByte_mul_five (s.reg x), onlyChanges_setI s _⟩

/-! ## Stores of several bytes (R175, R176, R178) -/

section
variable (m : Memory) (a : Nat) {a' : Nat} {bs : List Byte}

theorem Memory.read_writeList_inside {k : Nat} (hk : k < bs.length) : (m.writeList a bs).read (a + k) = bs[k] := by
  rw [Memory.read_writeList, if_pos (by omega), Nat.add_sub_cancel_left, List.getD_eq_getElem]

theorem Memory.read_writeList_outside (h : a' < a ∨ a + bs.length ≤ a') :
    (m.writeList a bs).read a' = m.read a' := by
  rw [Memory.read_writeList, if_neg (by omega)]

/-- R178: a store cut off at the end of memory leaves below 4096 what the whole store would. -/
theorem Memory.read_writeList_take_inside (h : a' < 4096) :
    (m.writeList a (bs.take (4096 - a))).read a' = (m.writeList a bs).read a' := by
  rw [Memory.read_writeList, Memory.read_writeList, List.length_take]
  by_cases hin : a ≤ a' ∧ a' < a + bs.length
  · rw [if_pos hin, if_pos (by omega), List.getD_eq_getElem?_getD, List.getElem?_take_of_lt (by omega),
      List.getD_eq_getElem?_getD]
  · rw [if_neg hin, if_neg (by omega)]

/-- R178: a store cut off at the end of memory leaves alone what is before it and what is beyond the end. -/
theorem Memory.read_writeList_take_outside (h : a' < a ∨ 4096 ≤ a') :
    (m.writeList a (bs.take (4096 - a))).read a' = m.read a' := by
  by_cases hlt : a' < a
  · exact m.read_writeList_outside a (.inl hlt)
  · exact m.read_writeList_outside a (.inr (by rw [List.length_take]; omega))

end

/-- R175: the digits of a byte, as numbers, in the three bytes from `a` on. -/
theorem Memory.toNat_read_writeList_bcdDigits (m : Memory) (a : Nat) (b : Byte) :
    ((m.writeList a (bcdDigits b)).read a).toNat = b.toNat / 100 ∧
    ((m.writeList a (bcdDigits b)).read (a + 1)).toNat = b.toNat / 10 % 10 ∧
    ((m.writeList a (bcdDigits b)).read (a + 2)).toNat = b.toNat % 10 := by
  have hb := b.isLt
  have hread (k : Nat) (hk : k < 3) : (m.writeList a (bcdDigits b)).read (a + k) = (bcdDigits b)[k] :=
    m.read_writeList_inside a hk
  have hdigit (n : Nat) (hn : n < 10) : (BitVec.ofNat 8 n).toNat = n := Nat.mod_eq_of_lt (by omega)
  refine ⟨?hundreds, ?tens, ?units⟩
  case hundreds => exact (congrArg _ (hread 0 (by decide))).trans (hdigit _ (by omega))
  case tens => exact (congrArg _ (hread 1 (by decide))).trans (hdigit _ (by omega))
  case units => exact (congrArg _ (hread 2 (by decide))).trans (hdigit _ (by omega))

/-- Settles O38: the store is in range, so it leaves the three digits and no other byte. -/
theorem storeDecimalDigits : Obligations.StoreDecimalDigits := by
  intro x s h
  obtain ⟨-, e⟩ | ⟨hl, -⟩ := exec_ldBVx_cases x s
  · obtain ⟨hundreds, tens, units⟩ := s.mem.toNat_read_writeList_bcdDigits s.i.toNat (s.reg x)
    exact ⟨_, e, hundreds, tens, units, fun a ha => s.mem.read_writeList_outside _ (by rw [length_bcdDigits]; omega),
      onlyChanges_setMem s _⟩
  · omega

/-- Settles O39: the digits below 4096 are those the whole store would leave. -/
theorem storeDecimalDigitsFault : Obligations.StoreDecimalDigitsFault := by
  intro x s h
  obtain ⟨hl, -⟩ | ⟨-, e⟩ := exec_ldBVx_cases x s
  · omega
  · obtain ⟨hundreds, tens, -⟩ := s.mem.toNat_read_writeList_bcdDigits s.i.toNat (s.reg x)
    refine ⟨_, e, rfl, fun hfit => ?_, fun hfit => ?_, fun a => s.mem.read_writeList_take_outside _,
      instructionsWriteOnlyTheMatrix _ s _ e⟩
    · rw [State.setMode_mem, State.setMem_mem, s.mem.read_writeList_take_inside _ hfit, hundreds]
    · rw [State.setMode_mem, State.setMem_mem, s.mem.read_writeList_take_inside _ hfit, tens]

section
variable {x : Reg} {s : State}

theorem exec_ldMemVx_stores (h : s.i.toNat + x.val < 4096) :
    exec (.ldMemVx x) s = .next (s.setMem (s.mem.writeList s.i.toNat ((regsUpTo x).map s.reg))) := by
  obtain ⟨-, e⟩ | ⟨hl, -⟩ := exec_ldMemVx_cases x s
  · exact e
  · omega

theorem exec_ldMemVx_faults (h : 4096 ≤ s.i.toNat + x.val) : exec (.ldMemVx x) s =
    .next ((s.setMem (s.mem.writeList s.i.toNat (((regsUpTo x).map s.reg).take (4096 - s.i.toNat)))).setMode
      (.faulted .boundsError)) := by
  obtain ⟨hl, -⟩ | ⟨-, e⟩ := exec_ldMemVx_cases x s
  · omega
  · exact e

theorem exec_ldVxMem_loads (h : s.i.toNat + x.val < 4096) :
    exec (.ldVxMem x) s = .next (s.loaded s.i.toNat (regsUpTo x)) := by
  obtain ⟨-, e⟩ | ⟨hl, -⟩ := exec_ldVxMem_cases x s
  · exact e
  · omega

theorem exec_ldVxMem_faults (h : 4096 ≤ s.i.toNat + x.val) : exec (.ldVxMem x) s =
    .next ((s.loaded s.i.toNat ((regsUpTo x).take (4096 - s.i.toNat))).setMode (.faulted .boundsError)) := by
  obtain ⟨hl, -⟩ | ⟨-, e⟩ := exec_ldVxMem_cases x s
  · omega
  · exact e

end

/-- Settles O40: the store is in range, so it leaves the registers' bytes and no other. -/
theorem storeRegisters : Obligations.StoreRegisters := by
  intro x s h
  exact ⟨_, exec_ldMemVx_stores h, fun r hr => s.mem.read_writeList_regsUpTo _ _ hr,
    fun a ha => s.mem.read_writeList_outside _ (by rw [List.length_map, length_regsUpTo]; omega),
    onlyChanges_setMem s _⟩

/-! ## Loads of several registers (R177, R178) -/

section
variable (s : State) (a : Nat) {x r : Reg} {n : Nat}

/-- R177, R178: each of the first `n` registers of the range gets the byte at its own distance from the base. -/
theorem State.loaded_take_regsUpTo_reg (h : r ≤ x) (hn : r.val < n) :
    (s.loaded a ((regsUpTo x).take n)).reg r = s.mem.read (a + r.val) := by
  have hr : r.val < ((regsUpTo x).take n).length := by
    rw [List.length_take, length_regsUpTo]
    exact lt_min hn (Nat.lt_succ_of_le h)
  have hload := s.loaded_reg _ a (nodup_regsUpTo x).take r.val hr
  rwa [List.getElem_take, getElem_regsUpTo] at hload

theorem not_mem_take_regsUpTo (hn : n ≤ r.val) : r ∉ (regsUpTo x).take n := by
  intro hr
  obtain ⟨k, hk, rfl⟩ := List.getElem_of_mem hr
  rw [List.getElem_take, getElem_regsUpTo] at hn
  exact absurd (List.length_take_le n _) (Nat.not_le.mpr (hn.trans_lt hk))

theorem State.loaded_regsUpTo_reg (h : r ≤ x) : (s.loaded a (regsUpTo x)).reg r = s.mem.read (a + r.val) := by
  have hn : r.val < (regsUpTo x).length := by rw [length_regsUpTo]; exact Nat.lt_succ_of_le h
  simpa only [List.take_length] using s.loaded_take_regsUpTo_reg a h hn

end

/-- Settles O41: each register up to `x` gets its own byte, by the loads in range. -/
theorem loadRegisters : Obligations.LoadRegisters := by
  intro x s h
  exact ⟨_, exec_ldVxMem_loads h, fun r => s.loaded_regsUpTo_reg _, onlyChanges_loaded s _ _⟩

/-- Settles O42: what is cut off is what would lie at 4096 or above, so the rest is as in the whole transfer. -/
theorem blockTransferFaults : Obligations.BlockTransferFaults := by
  intro x s h
  have stored := exec_ldMemVx_faults h
  have loaded := exec_ldVxMem_faults h
  have lower : ∀ r : Reg, s.i.toNat + r.val < 4096 → r ≤ x := fun r hr => Fin.le_def.mpr (by omega)
  constructor
  · refine ⟨_, stored, rfl, fun r hr => ?_, fun a => s.mem.read_writeList_take_outside _,
      instructionsWriteOnlyTheMatrix _ s _ stored⟩
    rw [State.setMode_mem, State.setMem_mem, s.mem.read_writeList_take_inside _ hr]
    exact s.mem.read_writeList_regsUpTo _ _ (lower r hr)
  · exact ⟨_, loaded, rfl, fun r hr => s.loaded_take_regsUpTo_reg _ (lower r hr) (by omega),
      fun r hr => s.loaded_reg_other _ _ (not_mem_take_regsUpTo (by omega)),
      instructionsWriteOnlyTheMatrix _ s _ loaded⟩

/-! ## A store and the load of the same range (R57, R176, R177) -/

/-- Settles O43: the load's bytes are those the store left, one for each register. -/
theorem storedRegistersLoadBack : Obligations.StoredRegistersLoadBack := by
  intro x s u h
  refine ⟨_, exec_ldMemVx_stores h, fun hmem hi => ⟨_, exec_ldVxMem_loads (by rwa [hi]), fun r hr => ?_⟩⟩
  calc (u.loaded u.i.toNat (regsUpTo x)).reg r = u.mem.read (s.i.toNat + r.val) := by
        rw [u.loaded_regsUpTo_reg _ hr, hi]
    _ = (s.mem.writeList s.i.toNat ((regsUpTo x).map s.reg)).read (s.i.toNat + r.val) := hmem _
    _ = s.reg r := s.mem.read_writeList_regsUpTo _ _ hr

end Sys2Proof.Machine
end

section
/-! The display (44_display.md): reading a pixel, clearing the grid, what a drawn sprite does to each pixel, and the two
ends of `Dxyn`. -/

namespace Sys2Proof.Machine

/-! ## Reading a pixel (R192, R195) -/

/-- R192: two coordinates with the same residues name the same pixel. -/
theorem Grid.isSet_congr (g : Grid) {x y x' y' : Nat} (hx : x % 64 = x' % 64) (hy : y % 32 = y' % 32) :
    g.isSet x y = g.isSet x' y' := by
  rw [← g.isSet_mod x y, hx, hy, g.isSet_mod]

/-- Settles O50: the query reduces both coordinates and indexes the grid with the residues. -/
theorem pixelQueryWraps : Obligations.PixelQueryWraps := by
  intro s x y
  refine ⟨fun col row hcol hrow => ?_, s.fb.isSet_congr (Nat.add_mod_right x 64) rfl,
    s.fb.isSet_congr rfl (Nat.add_mod_right y 32)⟩
  obtain rfl : col = ⟨x % 64, Nat.mod_lt x (by decide)⟩ := Fin.ext hcol
  obtain rfl : row = ⟨y % 32, Nat.mod_lt y (by decide)⟩ := Fin.ext hrow
  rfl

/-! ## Clearing the grid (R190) -/

/-- Settles O45: the grid becomes the cleared one whatever it was, so a second clear finds it there. -/
theorem clearScreen : Obligations.ClearScreen := by
  refine ⟨decodeOp_encode (i := .cls) rfl, fun s => ⟨s.setFb Grid.clear, rfl, ?_, onlyChanges_setFb s _, rfl⟩⟩
  exact Grid.isSet_clear

/-! ## Drawing a sprite (R193) -/

/-- A property holds at some entry exactly when it holds at some 1 bit of the sprite. -/
theorem any_visits {y : Nat} {rows : List Byte} (f : Nat × Nat → Bool) :
    (visits y rows).any f = true ↔ ∃ r b, SpriteBit rows r b ∧ f (b, y + r) = true := by
  rw [List.any_eq_true]
  constructor
  · rintro ⟨p, hp, hf⟩
    obtain ⟨r, b, hbit, rfl⟩ := (mem_visits rows y p).mp hp
    exact ⟨r, b, hbit, hf⟩
  · rintro ⟨r, b, hbit, hf⟩
    exact ⟨_, (mem_visits rows y _).mpr ⟨r, b, hbit, rfl⟩, hf⟩

theorem any_hits_visits {x y px py : Nat} {rows : List Byte} :
    ((visits y rows).any fun p => hits x p px py) = true ↔ SpriteCovers x y rows px py := by
  simp only [any_visits, hits, decide_eq_true_eq, SpriteCovers, eq_comm (a := px % 64), eq_comm (a := py % 32)]

/-- A 1 bit of the sprite covers the pixel it lands on. -/
theorem SpriteBit.covers {rows : List Byte} {r b : Nat} (h : SpriteBit rows r b) (x y : Nat) :
    SpriteCovers x y rows (x + b) (y + r) := ⟨r, b, h, rfl, rfl⟩

section
variable (g : Grid) (x y : Nat) {rows : List Byte} (h : rows.length ≤ 15)

theorem Grid.drawSprite_eq_flipAll : g.drawSprite x y rows = flipAll x (visits y rows) (g, false) :=
  drawRows_flip rows x y (g, false)

include h

/-- No 1 bit shares its pixel with another, so each pixel is flipped once if it is covered and kept if it is not. -/
theorem Grid.isSet_drawSprite (px py : Nat) : (g.drawSprite x y rows).1.isSet px py =
    (g.isSet px py ^^ (visits y rows).any fun p => hits x p px py) := by
  rw [Grid.drawSprite_eq_flipAll]
  exact (flipAll_spec x _ _ (apart_visits x rows y (by omega))).1 px py

theorem Grid.isSet_drawSprite_of_covers {px py : Nat} (hc : SpriteCovers x y rows px py) :
    (g.drawSprite x y rows).1.isSet px py = !g.isSet px py := by
  rw [g.isSet_drawSprite x y h, any_hits_visits.mpr hc, Bool.xor_true]

theorem Grid.isSet_drawSprite_of_not_covers {px py : Nat} (hc : ¬ SpriteCovers x y rows px py) :
    (g.drawSprite x y rows).1.isSet px py = g.isSet px py := by
  rw [g.isSet_drawSprite x y h, Bool.eq_false_iff.mpr (mt any_hits_visits.mp hc), Bool.xor_false]

/-- R193: the collision is about the pixels before the sprite was drawn. -/
theorem Grid.drawSprite_collided : (g.drawSprite x y rows).2 = true ↔
    ∃ r b, SpriteBit rows r b ∧ g.isSet (x + b) (y + r) = true := by
  rw [Grid.drawSprite_eq_flipAll, (flipAll_spec x _ _ (apart_visits x rows y (by omega))).2, Bool.false_or, any_visits]

/-- Two draws of one sprite flip each covered pixel twice and no other. -/
theorem Grid.drawSprite_drawSprite : ((g.drawSprite x y rows).1.drawSprite x y rows).1 = g := by
  refine Grid.ext_isSet _ _ fun px py _ _ => ?_
  rw [Grid.isSet_drawSprite _ x y h, Grid.isSet_drawSprite _ x y h, Bool.xor_assoc, Bool.xor_self, Bool.xor_false]

end

/-- Settles O46: a covered pixel is negated and any other kept, and the collision is the one with the grid before. -/
theorem spriteFlipsAndCollides : Obligations.SpriteFlipsAndCollides := by
  intro g x y rows h
  refine ⟨fun px py => ?_, g.drawSprite_collided x y h⟩
  by_cases hc : SpriteCovers x y rows px py
  · simp [g.isSet_drawSprite_of_covers x y h hc, hc]
  · simp [g.isSet_drawSprite_of_not_covers x y h hc, hc]

/-- Settles O47: the second draw finds each pixel under a 1 bit negated by the first. -/
theorem spriteDrawnTwiceRestores : Obligations.SpriteDrawnTwiceRestores := by
  intro g x y rows h
  refine ⟨g.drawSprite_drawSprite x y h, (Grid.drawSprite_collided _ x y h).trans ?_⟩
  refine exists_congr fun r => exists_congr fun b => and_congr_right fun hbit => ?_
  rw [g.isSet_drawSprite_of_covers x y h (hbit.covers x y), Bool.not_eq_true']

/-! ## `Dxyn` (R194) -/

theorem flagByte_eq_one_iff (c : Bool) : flagByte c = 1 ↔ c = true := by
  cases c
  · exact iff_of_false (by decide) (by decide)
  · exact iff_of_true rfl rfl

section
variable (s : State) (x y : Byte) (rows : List Byte)

theorem State.drawAt_fb : (s.drawAt x y rows).fb = (s.fb.drawSprite x.toNat y.toNat rows).1 := rfl

theorem State.drawAt_reg_vf : (s.drawAt x y rows).reg vf = flagByte (s.fb.drawSprite x.toNat y.toNat rows).2 :=
  State.reg_setReg_same _ vf _

/-- R194: a sprite of no rows leaves the grid as it is and clears VF. -/
theorem State.drawAt_nil : (s.drawAt x y []).fb = s.fb ∧ (s.drawAt x y []).reg vf = 0 :=
  ⟨rfl, s.drawAt_reg_vf x y []⟩

end

section
variable (x y : Reg) {n : Fin 16} {s : State}

theorem exec_drw_draws (h : n.val = 0 ∨ s.i.toNat + n.val ≤ 4096) :
    exec (.drw x y n) s = .next (s.drawAt (s.reg x) (s.reg y) (s.spriteRows n.val)) := by
  obtain ⟨-, e⟩ | ⟨hn, hfar, -⟩ := exec_drw_cases x y n s
  · exact e
  · omega

theorem exec_drw_faults (hn : n.val ≠ 0) (h : 4096 < s.i.toNat + n.val) :
    exec (.drw x y n) s = .next (s.setMode (.faulted .boundsError)) := by
  obtain ⟨hfit, -⟩ | ⟨-, -, e⟩ := exec_drw_cases x y n s
  · omega
  · exact e

end

/-- Settles O48: the rows are in range or none, so the sprite is drawn and VF gets the collision. -/
theorem drawInstruction : Obligations.DrawInstruction := by
  intro x y n s h
  refine ⟨_, exec_drw_draws x y h, s.drawAt_fb _ _ _, ?flag, ?bit, fun hn => ?none, onlyChanges_drawAt s _ _ _⟩
  case flag => rw [State.drawAt_reg_vf, flagByte_eq_one_iff]
  case bit =>
    rw [State.drawAt_reg_vf]
    exact flagByte_eq_zero_or_one _
  case none =>
    rw [hn]
    exact s.drawAt_nil _ _

/-- Settles O49: the last row is out of range, so the fetch of the rows faults before anything is drawn. -/
theorem drawInstructionFault : Obligations.DrawInstructionFault := by
  intro x y n s hn h
  exact ⟨_, exec_drw_faults x y (by omega) (by omega), rfl, onlyChanges_setMode s _⟩

end Sys2Proof.Machine
end

section
/-! Keys and timers (45_keyboard_timers.md): the key skips, the wait for a key and its resolution, the timer instructions. -/

namespace Sys2Proof.Machine

/-! ## The key skips (R210 to R212) -/

/-- R233: an instruction that ends in a fault entry changes `MODE` alone. -/
theorem faults_of_exec {i : Instr} {s : State} {c : FaultCause} (e : exec i s = .next (s.setMode (.faulted c))) :
    Faults i s c [] :=
  ⟨_, e, rfl, onlyChanges_setMode s _⟩

section
variable (x : Reg) {s : State}

theorem exec_skpVx_skips (h : (s.reg x).toNat < 16) :
    exec (.skpVx x) s = .next (s.skipIf (s.isKeyDown ⟨(s.reg x).toNat, h⟩)) := by
  obtain ⟨_, e⟩ | ⟨hout, -⟩ := exec_skpVx_cases x s
  · exact e
  · omega

theorem exec_skpVx_faults (h : 16 ≤ (s.reg x).toNat) :
    exec (.skpVx x) s = .next (s.setMode (.faulted .boundsError)) := by
  obtain ⟨hin, -⟩ | ⟨-, e⟩ := exec_skpVx_cases x s
  · omega
  · exact e

theorem exec_sknpVx_skips (h : (s.reg x).toNat < 16) :
    exec (.sknpVx x) s = .next (s.skipIf (!s.isKeyDown ⟨(s.reg x).toNat, h⟩)) := by
  obtain ⟨_, e⟩ | ⟨hout, -⟩ := exec_sknpVx_cases x s
  · exact e
  · omega

theorem exec_sknpVx_faults (h : 16 ≤ (s.reg x).toNat) :
    exec (.sknpVx x) s = .next (s.setMode (.faulted .boundsError)) := by
  obtain ⟨hin, -⟩ | ⟨-, e⟩ := exec_sknpVx_cases x s
  · omega
  · exact e

end

/-- Settles O51: below 16 the test is the key's value or its negation; from 16 on the read of the key faults. -/
theorem keySkips : Obligations.KeySkips := by
  intro x s
  constructor
  · intro h
    exact ⟨skipsIf_of_exec (exec_skpVx_skips x h) Iff.rfl,
      skipsIf_of_exec (exec_sknpVx_skips x h) (.of_eq (Bool.not_eq_true' _))⟩
  · intro h
    exact ⟨faults_of_exec (exec_skpVx_faults x h), faults_of_exec (exec_sknpVx_faults x h)⟩

/-! ## Key events and ticks outside a fault (R214, R218, R250, R254 to R256) -/

theorem State.isFaulted_of_running {s : State} (h : s.mode = .running) : s.isFaulted = false := by
  rw [State.isFaulted, h]

theorem State.isFaulted_of_awaitingKey {s : State} {r : Reg} (h : s.mode = .awaitingKey r) : s.isFaulted = false := by
  rw [State.isFaulted, h]

theorem State.resolveWait_awaitingKey {s : State} {r : Reg} (h : s.mode = .awaitingKey r) (k : Fin 16) :
    s.resolveWait k = (s.setReg r (BitVec.ofNat 8 k.val)).setMode .running := by
  rw [State.resolveWait, h]

section
variable {s : State} (h : s.isFaulted = false) (k : Fin 16)
include h

theorem State.tickTimers_of_not_faulted : s.tickTimers = (s.setDt (tickDown s.dt)).setSt (tickDown s.st) := by
  rw [State.tickTimers, h, if_neg Bool.false_ne_true]

theorem State.keyDown_of_not_faulted : s.keyDown k.val = (s.setKey k true).resolveWait k := by
  rw [State.keyDown, h, if_neg Bool.false_ne_true, dif_pos k.isLt]

theorem State.keyUp_of_not_faulted : s.keyUp k.val = s.setKey k false := by
  rw [State.keyUp, h, if_neg Bool.false_ne_true, dif_pos k.isLt]

/-- R251: outside a fault the beep depends on `ST` alone. -/
theorem State.beep_of_not_faulted : s.beep = true ↔ s.st ≠ 0 := by
  rw [State.beep, h, Bool.not_false, Bool.true_and, bne_iff_ne]

end

/-! ## The wait for a key (R213, R214) -/

theorem State.keyDown_awaitingKey {s : State} {r : Reg} (h : s.mode = .awaitingKey r) (k : Fin 16) :
    s.keyDown k.val = ((s.setKey k true).setReg r (BitVec.ofNat 8 k.val)).setMode .running :=
  (State.keyDown_of_not_faulted (State.isFaulted_of_awaitingKey h) k).trans
    (State.resolveWait_awaitingKey (s := s.setKey k true) h k)

/-- Settles O52: the entry writes `MODE`; in the wait only a key-down event writes it, after the key and the register. -/
theorem keyWaitEntersAndResolves : Obligations.KeyWaitEntersAndResolves := by
  refine ⟨fun x s => ⟨_, rfl, rfl, onlyChanges_setMode s _⟩, fun s r k hm => ?_⟩
  have hf := State.isFaulted_of_awaitingKey hm
  rw [State.tickTimers_of_not_faulted hf, State.keyUp_of_not_faulted hf, State.keyDown_awaitingKey hm]
  refine ⟨step_idle s (by simp [hm]), hm, hm, s.keyAt_setKey_same k true, fun j hj => ?other, ?index, rfl, ?frame⟩
  case other => exact (s.keyAt_setKey k j true).trans (if_neg hj)
  case index =>
    rw [State.setMode_reg, State.reg_setReg_same, BitVec.toNat_ofNat]
    omega
  case frame =>
    exact ((onlyChanges_setKey s k true).andAlso (onlyChanges_setReg _ r _)).andAlso (onlyChanges_setMode _ _)

/-! ## The timer instructions (R215 to R217) -/

/-- Settles O54: each instruction is one write; the one to `ST` keeps `MODE`, so a beep in `Running` tests the new `ST`. -/
theorem timerInstructions : Obligations.TimerInstructions := by
  intro x s
  refine ⟨decodeOp_encode (i := .ldVxDt x) rfl, writesReg_of_exec rfl rfl,
    decodeOp_encode (i := .ldDtVx x) rfl, ⟨_, rfl, rfl, onlyChanges_setDt s _⟩,
    decodeOp_encode (i := .ldStVx x) rfl, ⟨_, rfl, rfl, onlyChanges_setSt s _, fun hm => ?beep⟩⟩
  case beep =>
    exact State.beep_of_not_faulted (s := s.setSt (s.reg x)) (State.isFaulted_of_running hm)

end Sys2Proof.Machine
end

section
/-! The host's commands and the faults (60_exceptions.md): the latch and the status outputs, the key commands, the ticks,
the fault table, and that every run of commands is safe. -/

namespace Sys2Proof.Machine

/-! ## The latch and the status outputs (R231, R233, R234, R261) -/

theorem State.isFaulted_of_faulted {s : State} {c : FaultCause} (h : s.mode = .faulted c) : s.isFaulted = true := by
  rw [State.isFaulted, h]

/-- R101: a faulted state runs no instruction. -/
theorem State.mode_ne_running_of_isFaulted {s : State} (h : s.isFaulted = true) : s.mode ≠ .running := fun hm =>
  Bool.false_ne_true ((State.isFaulted_of_running hm).symm.trans h)

/-- R233, D3: each command other than `init` tests the latch first. -/
theorem command_of_isFaulted {s : State} (h : s.isFaulted = true) {k : Command} (hk : k ≠ .init) :
    command k s = .next s := by
  cases k with
  | init => exact absurd rfl hk
  | step => exact step_idle s (State.mode_ne_running_of_isFaulted h)
  | load | tickTimers | keyDown | keyUp => exact congrArg Host.Outcome.next (if_pos h)

theorem State.beep_of_isFaulted {s : State} (h : s.isFaulted = true) : s.beep = false := by
  rw [State.beep, h, Bool.not_true, Bool.false_and]

/-- R231: the numbers of the causes are 1 to 4, each another. -/
theorem FaultCause.code_ne_zero (c : FaultCause) : c.code ≠ 0 := by cases c <;> decide

theorem FaultCause.code_inj {c d : FaultCause} : c.code = d.code ↔ c = d := by cases c <;> cases d <;> decide

section
variable (s : State)

/-- R261: the output `fault` is 0 outside `Faulted`. -/
theorem State.faultOut_eq_zero_iff : s.faultOut = 0 ↔ s.mode = .running ∨ ∃ r, s.mode = .awaitingKey r := by
  cases hm : s.mode with
  | running | awaitingKey => simp [State.faultOut, hm]
  | faulted c => simp [State.faultOut, hm, c.code_ne_zero]

/-- R231, R261: the output `fault` is the number of the latched cause. -/
theorem State.faultOut_eq_code_iff (c : FaultCause) : s.faultOut = c.code ↔ s.mode = .faulted c := by
  cases hm : s.mode with
  | running | awaitingKey => simp [State.faultOut, hm, c.code_ne_zero.symm]
  | faulted d => simp [State.faultOut, hm, FaultCause.code_inj]

theorem State.awaitingKeyOut_iff : s.awaitingKeyOut = true ↔ ∃ r, s.mode = .awaitingKey r := by
  cases hm : s.mode <;> simp [State.awaitingKeyOut, hm]

end

/-- Settles O18: the commands test the latch, the reset state runs, and the outputs are functions of `MODE`. -/
theorem faultIsLatchedUntilInit : Obligations.FaultIsLatchedUntilInit := by
  intro s
  refine ⟨fun c hm => ?latch, s.faultOut_eq_zero_iff, s.faultOut_eq_code_iff .boundsError,
    s.faultOut_eq_code_iff .stackOverflow, s.faultOut_eq_code_iff .stackUnderflow,
    s.faultOut_eq_code_iff .programTooLarge, s.awaitingKeyOut_iff⟩
  case latch =>
    have hf := State.isFaulted_of_faulted hm
    exact ⟨fun k hk => command_of_isFaulted hf hk, State.beep_of_isFaulted hf, _, rfl, rfl⟩

/-! ## The key commands (R254 to R256) -/

theorem State.resolveWait_running {s : State} (h : s.mode = .running) (k : Fin 16) : s.resolveWait k = s := by
  rw [State.resolveWait, h]

theorem State.keyDown_running {s : State} (h : s.mode = .running) (k : Fin 16) :
    s.keyDown k.val = s.setKey k true :=
  (State.keyDown_of_not_faulted (State.isFaulted_of_running h) k).trans
    (State.resolveWait_running (s := s.setKey k true) h k)

section
variable {s : State} (h : s.isFaulted = false) {i : Nat} (hi : 16 ≤ i)
include h hi

theorem State.keyDown_out_of_range : s.keyDown i = s.setMode (.faulted .boundsError) := by
  rw [State.keyDown, h, if_neg Bool.false_ne_true, dif_neg (Nat.not_lt.mpr hi), State.takeFault_eq]

theorem State.keyUp_out_of_range : s.keyUp i = s.setMode (.faulted .boundsError) := by
  rw [State.keyUp, h, if_neg Bool.false_ne_true, dif_neg (Nat.not_lt.mpr hi), State.takeFault_eq]

end

/-- R35: a key write changes that key's answer and nothing else. -/
theorem isKeyDown_setKey_frame (s : State) (k : Fin 16) (b : Bool) :
    (s.setKey k b).isKeyDown k = b ∧ (∀ j : Fin 16, j.val ≠ k.val → (s.setKey k b).isKeyDown j = s.isKeyDown j) ∧
      OnlyChanges [.key] s (s.setKey k b) :=
  ⟨s.keyAt_setKey_same k b, fun j hj => (s.keyAt_setKey k j b).trans (if_neg (Fin.ne_of_val_ne hj)),
    onlyChanges_setKey s k b⟩

/-- Settles O53: below 16 each command is one key write, from 16 on one fault entry. -/
theorem keyCommands : Obligations.KeyCommands := by
  refine fun s i => ⟨fun hm h => ?down, fun hf h => ?up, fun hf hi => ?outOfRange⟩
  case down =>
    rw [State.keyDown_running hm ⟨i, h⟩]
    exact isKeyDown_setKey_frame s ⟨i, h⟩ true
  case up =>
    rw [State.keyUp_of_not_faulted hf ⟨i, h⟩]
    exact isKeyDown_setKey_frame s ⟨i, h⟩ false
  case outOfRange =>
    rw [State.keyDown_out_of_range hf hi, State.keyUp_out_of_range hf hi]
    exact ⟨rfl, rfl, onlyChanges_setMode s _, onlyChanges_setMode s _⟩

/-! ## The ticks (R250, R251) -/

theorem toNat_tickDown (b : Byte) : (tickDown b).toNat = b.toNat - 1 := by
  rw [tickDown]
  split <;> bv_omega

theorem toNat_iterate_tickDown (b : Byte) (k : Nat) : (tickDown^[k] b).toNat = b.toNat - k := by
  induction k with
  | zero => rfl
  | succ k ih => rw [Function.iterate_succ_apply', toNat_tickDown, ih, Nat.sub_sub]

/-- R250: outside a fault ticks act on each timer by itself. -/
theorem State.iterate_tickTimers {s : State} (h : s.isFaulted = false) (k : Nat) :
    State.tickTimers^[k] s = (s.setDt (tickDown^[k] s.dt)).setSt (tickDown^[k] s.st) := by
  induction k generalizing s with
  | zero => rfl
  | succ k ih =>
    rw [Function.iterate_succ_apply, State.tickTimers_of_not_faulted h]
    exact ih (s := (s.setDt (tickDown s.dt)).setSt (tickDown s.st)) h

/-- Settles O55: `k` ticks take `k` from each timer, and the beep after them tests what is left of `ST`. -/
theorem timersCountDownToZero : Obligations.TimersCountDownToZero := by
  intro s k h
  rw [State.iterate_tickTimers h]
  refine ⟨toNat_iterate_tickDown s.dt k, toNat_iterate_tickDown s.st k, ?beep,
    (onlyChanges_setDt s _).andAlso (onlyChanges_setSt _ _)⟩
  case beep =>
    have hbeep : _ ↔ tickDown^[k] s.st ≠ 0 :=
      State.beep_of_not_faulted (s := (s.setDt (tickDown^[k] s.dt)).setSt (tickDown^[k] s.st)) h
    rw [hbeep, ← BitVec.toNat_ne_iff_ne, toNat_iterate_tickDown]
    exact Nat.sub_ne_zero_iff_lt

/-! ## The fault table (R230) -/

/-- The cause latched in a `MODE`, if any. -/
def Mode.cause : Mode → Option FaultCause
  | .faulted c => some c
  | .running => none
  | .awaitingKey _ => none

theorem Mode.eq_faulted_iff (m : Mode) (c : FaultCause) : m = .faulted c ↔ m.cause = some c := by
  cases m <;> simp [Mode.cause]

theorem State.skipIf_mode (s : State) (c : Bool) : (s.skipIf c).mode = s.mode := by
  rw [State.skipIf_eq, State.setPc_mode]

theorem State.loaded_mode (s : State) (a : Nat) (rs : List Reg) : (s.loaded a rs).mode = s.mode := by
  rw [State.loaded_frame]

/-- R230: the cause that an instruction latches in `Running` is the table's. The ends of an instruction exclude each
other by the table's own conditions. -/
theorem exec_latches_faultCause {i : Instr} {s t : State} (h : s.Inv) (hm : s.mode = .running)
    (e : exec i s = .next t) : t.mode.cause = i.faultCause s := by
  have hrun : s.mode.cause = none := congrArg Mode.cause hm
  have hsp := h.sp_lt hm
  cases i with
  | cls | ldVxKk | addVxKk | ldVxVy | orVxVy | andVxVy | xorVxVy | addVxVy | subVxVy | shrVx | subnVxVy | shlVx
  | ldINnn | rndVxKk | ldVxDt | ldDtVx | ldStVx | addIVx | ldFVx | unmatched | jp | jpV0Nnn =>
    obtain rfl := Host.Outcome.next.inj e
    exact hrun
  | seVxKk | sneVxKk | seVxVy | sneVxVy =>
    obtain rfl := Host.Outcome.next.inj e
    rw [State.skipIf_mode]
    exact hrun
  | ldVxK x =>
    obtain rfl := Host.Outcome.next.inj e
    rfl
  | ret =>
    obtain ⟨h0, e'⟩ | ⟨h0, -, e'⟩ | ⟨-, e'⟩ := exec_ret_cases s <;> cases e'.symm.trans e
    · exact (if_pos (congrArg BitVec.toNat h0)).symm
    · exact hrun.trans (if_neg fun hz => h0 (BitVec.eq_of_toNat_eq hz)).symm
  | call nnn =>
    obtain ⟨hk, e'⟩ | ⟨hk, e'⟩ := exec_call_cases nnn s <;> cases e'.symm.trans e
    · exact hrun.trans (if_neg (by omega)).symm
    · exact (if_pos (by omega)).symm
  | drw x y n =>
    obtain ⟨hk, e'⟩ | ⟨h0, hk, e'⟩ := exec_drw_cases x y n s <;> cases e'.symm.trans e
    · exact hrun.trans (if_neg (by omega)).symm
    · exact (if_pos (by omega)).symm
  | skpVx x =>
    obtain ⟨hk, e'⟩ | ⟨hk, e'⟩ := exec_skpVx_cases x s <;> cases e'.symm.trans e
    · rw [State.skipIf_mode]
      exact hrun.trans (if_neg (Nat.not_le.mpr hk)).symm
    · exact (if_pos hk).symm
  | sknpVx x =>
    obtain ⟨hk, e'⟩ | ⟨hk, e'⟩ := exec_sknpVx_cases x s <;> cases e'.symm.trans e
    · rw [State.skipIf_mode]
      exact hrun.trans (if_neg (Nat.not_le.mpr hk)).symm
    · exact (if_pos hk).symm
  | ldBVx x =>
    obtain ⟨hk, e'⟩ | ⟨hk, e'⟩ := exec_ldBVx_cases x s <;> cases e'.symm.trans e
    · exact hrun.trans (if_neg (by omega)).symm
    · exact (if_pos (by omega)).symm
  | ldMemVx x =>
    obtain ⟨hk, e'⟩ | ⟨hk, e'⟩ := exec_ldMemVx_cases x s <;> cases e'.symm.trans e
    · exact hrun.trans (if_neg (Nat.not_le.mpr hk)).symm
    · exact (if_pos hk).symm
  | ldVxMem x =>
    obtain ⟨hk, e'⟩ | ⟨hk, e'⟩ := exec_ldVxMem_cases x s <;> cases e'.symm.trans e
    · rw [State.loaded_mode]
      exact hrun.trans (if_neg (Nat.not_le.mpr hk)).symm
    · exact (if_pos hk).symm

/-- Settles O17: the latched cause and the table's are one optional cause. -/
theorem faultTable : Obligations.FaultTable := by
  intro i s t c h hm e
  rw [Mode.eq_faulted_iff, exec_latches_faultCause h hm e]

/-! ## Every command keeps the invariant (R260, R263) -/

/-- R284, R285: outside a fault a load places a program that fits, and latches the fault for one that does not. -/
theorem State.load_cases {s : State} (h : s.isFaulted = false) (bytes : List Byte) :
    (512 + bytes.length < 4096 ∧ s.load bytes = s.placeProgram bytes) ∨
    (4096 ≤ 512 + bytes.length ∧ s.load bytes = s.setMode (.faulted .programTooLarge)) := by
  rw [State.load, h, if_neg Bool.false_ne_true]
  by_cases hb : 512 + bytes.length < 4096
  · exact .inl ⟨hb, if_neg (Nat.not_le.mpr hb)⟩
  · exact .inr ⟨Nat.not_lt.mp hb, if_pos (Nat.not_lt.mp hb)⟩

namespace State.Inv

/-- R280: whatever the state was, `init` leaves the reset state but for the draw count. -/
theorem init (s : State) : s.init.Inv := resetSatisfiesInvariant.of_same rfl rfl rfl rfl rfl

section
variable {s : State} (h : s.Inv)
include h

/-- R214: a key-down event keeps the invariant, in a wait or not. -/
theorem resolveWait (hsp : s.sp.toNat < Config.stackCapacity) (k : Fin 16) : (s.resolveWait k).Inv := by
  rw [State.resolveWait]
  split
  · exact (h.setMode hsp .running).of_same rfl rfl rfl rfl rfl
  · exact h
  · exact h

section
variable (hf : s.isFaulted = false)
include hf

/-- R25: `SP` is the capacity in the latched overflow only. -/
theorem sp_lt_of_not_faulted : s.sp.toNat < Config.stackCapacity := by
  have hne : s.sp.toNat ≠ Config.stackCapacity := fun e =>
    Bool.false_ne_true (hf.symm.trans (State.isFaulted_of_faulted (h.spFull e)))
  exact Nat.lt_of_le_of_ne h.spBound hne

theorem load (bytes : List Byte) : (s.load bytes).Inv := by
  obtain ⟨hb, e⟩ | ⟨-, e⟩ := State.load_cases hf bytes <;> rw [e]
  · exact (h.setMem (Memory.wf_writeList bytes s.mem 512 (Nat.le_of_lt hb) h.memWf)).setPc (by decide)
  · exact h.setMode (h.sp_lt_of_not_faulted hf) _

theorem tickTimers : s.tickTimers.Inv := by
  rw [State.tickTimers_of_not_faulted hf]
  exact h.of_same rfl rfl rfl rfl rfl

theorem keyDown (i : Nat) : (s.keyDown i).Inv := by
  have hsp := h.sp_lt_of_not_faulted hf
  obtain hi | hi := Nat.lt_or_ge i 16
  · rw [State.keyDown_of_not_faulted hf ⟨i, hi⟩]
    have hkey : (s.setKey ⟨i, hi⟩ true).Inv := h.of_same rfl rfl rfl rfl rfl
    exact hkey.resolveWait hsp _
  · rw [State.keyDown_out_of_range hf hi]
    exact h.setMode hsp _

theorem keyUp (i : Nat) : (s.keyUp i).Inv := by
  obtain hi | hi := Nat.lt_or_ge i 16
  · rw [State.keyUp_of_not_faulted hf ⟨i, hi⟩]
    exact h.of_same rfl rfl rfl rfl rfl
  · rw [State.keyUp_out_of_range hf hi]
    exact h.setMode (h.sp_lt_of_not_faulted hf) _

end

end

end State.Inv

/-- Settles O12: a latched fault stops all but `init`; outside it each command keeps the invariant, and a step answers. -/
theorem commandKeepsInvariant : Obligations.CommandKeepsInvariant := by
  intro s c h
  by_cases hc : c = .init
  · exact hc ▸ ⟨_, rfl, State.Inv.init s⟩
  cases hf : s.isFaulted with
  | true => exact ⟨s, command_of_isFaulted hf hc, h⟩
  | false =>
    cases c with
    | init => exact absurd rfl hc
    | load bytes => exact ⟨_, rfl, h.load hf bytes⟩
    | step =>
      obtain ⟨t, e⟩ := stepAlwaysAnswers s h
      exact ⟨t, e, stepKeepsInvariant s t h e⟩
    | tickTimers => exact ⟨_, rfl, h.tickTimers hf⟩
    | keyDown i => exact ⟨_, rfl, h.keyDown hf i⟩
    | keyUp i => exact ⟨_, rfl, h.keyUp hf i⟩

/-- A run goes on from the next state of its first command. -/
theorem runCommands_cons {c : Command} {s t : State} (e : command c s = .next t) (cs : List Command) :
    runCommands (c :: cs) s = runCommands cs t := by
  rw [runCommands, e]

/-- Settles O58: by induction on the commands, each of which answers a state from which the rest is safe. -/
theorem everyRunIsSafe : Obligations.EveryRunIsSafe := by
  intro s cs h
  induction cs generalizing s with
  | nil => exact ⟨s, rfl, h⟩
  | cons c cs ih =>
    obtain ⟨t, e, ht⟩ := commandKeepsInvariant s c h
    rw [runCommands_cons e]
    exact ih t ht

end Sys2Proof.Machine
end

section
/-! Reset and load (70_reset_and_hazards.md): what `init` leaves, where `load` puts a program, and its first step. -/

namespace Sys2Proof.Machine

/-! ## The reset state (R40, R280) -/

/-- R40, R58: the first 80 bytes of the reset contents are the font. -/
theorem Memory.unlisted_of_lt {a : Nat} (h : a < 80) : Memory.unlisted a = Config.fontByte a := if_pos h

/-- R40: the reset contents are 0 above the font. -/
theorem Memory.unlisted_of_le {a : Nat} (h : 80 ≤ a) : Memory.unlisted a = 0 := if_neg (Nat.not_lt.mpr h)

/-- Settles O9: `init` gives the reset state but for the draw count, and the reset memory lists no byte. -/
theorem resetLeavesTheTabulatedState : Obligations.ResetLeavesTheTabulatedState :=
  ⟨fun _ => ⟨State.reset_reg, rfl, rfl, rfl, rfl, rfl, rfl, fun _ ha => Memory.unlisted_of_lt ha,
    fun _ ha _ => Memory.unlisted_of_le ha, State.reset_slot, Grid.isSet_clear, State.reset_keyAt, rfl⟩, rfl⟩

/-! ## The load of a program (R284, R285) -/

section
variable (s : State) (bytes : List Byte)

theorem State.placeProgram_pc : (s.placeProgram bytes).pc = 512 := rfl

theorem State.placeProgram_read_inside {k : Nat} (hk : k < bytes.length) :
    (s.placeProgram bytes).mem.read (512 + k) = bytes[k] := s.mem.read_writeList_inside 512 hk

theorem State.placeProgram_read_outside {a : Nat} (h : a < 512 ∨ 512 + bytes.length ≤ a) :
    (s.placeProgram bytes).mem.read a = s.mem.read a := s.mem.read_writeList_outside 512 h

theorem onlyChanges_placeProgram : OnlyChanges [.mem, .pc] s (s.placeProgram bytes) :=
  (onlyChanges_setMem s _).andAlso (onlyChanges_setPc _ _)

end

section
variable {s : State} (h : s.isFaulted = false) {bytes : List Byte}
include h

theorem State.load_of_fits (hb : 512 + bytes.length < 4096) : s.load bytes = s.placeProgram bytes :=
  ((State.load_cases h bytes).resolve_right fun hlarge => Nat.not_lt.mpr hlarge.1 hb).2

theorem State.load_of_too_large (hb : 4096 ≤ 512 + bytes.length) :
    s.load bytes = s.setMode (.faulted .programTooLarge) :=
  ((State.load_cases h bytes).resolve_left fun hfits => Nat.not_lt.mpr hb hfits.1).2

end

/-- Settles O56: a program that fits is one store from 512 on and a jump there; one that does not is one fault entry. -/
theorem loadPlacesTheProgram : Obligations.LoadPlacesTheProgram := by
  refine fun s bytes h => ⟨fun hb => ?fits, fun hb => ?tooLarge⟩
  case fits =>
    rw [State.load_of_fits h hb]
    refine ⟨fun k hk => ?placed, fun _ => s.placeProgram_read_outside bytes, rfl, onlyChanges_placeProgram s bytes⟩
    case placed => rw [s.placeProgram_read_inside bytes hk, List.getD_eq_getElem]
  case tooLarge =>
    rw [State.load_of_too_large h hb]
    exact ⟨rfl, onlyChanges_setMode s _⟩

/-! ## The first step of a loaded program (R287, R288) -/

/-- R100 to R103, R284: in `Running` the step after a placed program finds the program's first two bytes at `PC`. -/
theorem step_placeProgram {s : State} (hm : s.mode = .running) (hi lo : Byte) (rest : List Byte) :
    step (s.placeProgram (hi :: lo :: rest)) =
      exec (decodeOp (hi ++ lo)) ((s.placeProgram (hi :: lo :: rest)).setPc 514) := by
  have hhi : (s.placeProgram (hi :: lo :: rest)).mem.read 512 = hi :=
    s.placeProgram_read_inside (hi :: lo :: rest) (k := 0) (by simp)
  have hlo : (s.placeProgram (hi :: lo :: rest)).mem.read 513 = lo :=
    s.placeProgram_read_inside (hi :: lo :: rest) (k := 1) (by simp)
  rw [step_running (s.placeProgram _) hm (by rw [State.placeProgram_pc]; decide), State.placeProgram_pc]
  exact congrArg₂ (fun a b => exec (decodeOp (a ++ b)) _) hhi hlo

/-- Settles O57: `init` leaves `Running`, in which the load places the program that the step then finds. -/
theorem bootRunsTheFirstInstruction : Obligations.BootRunsTheFirstInstruction := by
  intro s hi lo rest hfits
  have hrun : s.init.mode = .running := rfl
  rw [State.load_of_fits (State.isFaulted_of_running hrun) hfits]
  exact step_placeProgram hrun hi lo rest

end Sys2Proof.Machine
end
